-- ==== Sys2Proof/Word.lean ====
section
/-! DEFINITION. The widths of the engine: a byte (one transported byte, R7) and a command word (R55).
All values are unsigned (R8). -/

namespace Sys2Proof

/-- One transported byte, one `FB` entry, one `SEG` entry: exactly 8 bits (R7, R35, R37). -/
abbrev Byte := BitVec 8

/-- One command word: exactly 32 bits, bit 31 the most significant (R55, R62). -/
abbrev Word := BitVec 32

end Sys2Proof
end

