-- ==== Sys2Proof/Syntax.lean ====
section
/-! DEFINITION. The commands of the engine, one constructor per row of spec/opcode_table.json (R58), and the statements
of its assembler (R63, R64). A constructor holds exactly the operands the command reads (R57): the ignored fields of a
word are no operands, since two words that differ only there are the same command (R60). -/

namespace Sys2Proof

/-- The commands, by opcode (R58). -/
inductive Instr where
  /-- `BUFWR idx, byte`, `OPC = 0x1` (R77). -/
  | bufwr (idx : BitVec 8) (byte : Byte)
  /-- `SENDRAW`, `OPC = 0x2` (R78). -/
  | sendraw
  /-- `SENDCHR`, `OPC = 0x3` (R79). -/
  | sendchr
  /-- `SENDNUM num`, `OPC = 0x4` (R80). -/
  | sendnum (num : BitVec 16)
  /-- `LATCH`, `OPC = 0x5` (R81). -/
  | latch
  /-- `ENABLE`, `OPC = 0x6` (R85). -/
  | enable
  /-- `DISABLE`, `OPC = 0x7` (R86). -/
  | disable
  /-- `BRIGHT level`, `OPC = 0x8` (R87). -/
  | bright (level : Byte)
  /-- `TONORMAL`, `OPC = 0x9` (R96). -/
  | tonormal
  /-- `TOSPECIAL`, `OPC = 0xA` (R97). -/
  | tospecial
  /-- `NOP`, the reserved opcode `0x0` (R59, R64). -/
  | nop
  /-- The reserved opcode `0xB` (R59). -/
  | reservedB
  /-- The reserved opcode `0xC` (R59). -/
  | reservedC
  /-- The reserved opcode `0xD` (R59). -/
  | reservedD
  /-- The reserved opcode `0xE` (R59). -/
  | reservedE
  /-- The reserved opcode `0xF` (R59). -/
  | reservedF
deriving DecidableEq, Repr

/-- One statement of the assembler: the command forms of R63 and the pseudo-instructions of R64, with the operands as
the line writes them, before any range is checked. -/
inductive AsmStmt where
  | bufwr (idx byte : Nat)
  | sendraw
  | sendchr
  | sendnum (num : Nat)
  | latch
  | enable
  | disable
  | bright (level : Nat)
  | tonormal
  | tospecial
  | nop
  | frame (bytes : List Nat)
  | showraw (bytes : List Nat)
  /-- `SHOWSTR "s"`, as the codes of the characters of `s`. -/
  | showstr (codes : List Nat)
  | shownum (num : Nat)
deriving DecidableEq, Repr

/-- Why the assembler refuses a line, by name (R65). -/
inductive AsmError where
  /-- "an unknown mnemonic". -/
  | unknownMnemonic
  /-- "the wrong number of operands". -/
  | wrongOperandCount
  /-- An operand that is no number in decimal or `0x` form, or a string without its quotes (R63). -/
  | malformedOperand
  /-- "an operand outside the range of R63". -/
  | operandOutOfRange
  /-- "a `FRAME` with no bytes or with more than 254". -/
  | frameLength
  /-- "a `SHOWRAW` or `SHOWSTR` whose length is not `N`". -/
  | showLength
deriving DecidableEq, Repr

/-- What the assembler warns of (R65). -/
inductive AsmWarning where
  /-- A `BUFWR` with `idx` 254 or 255 encodes a no-op write. -/
  | ignoredWrite (idx : Nat)
deriving DecidableEq, Repr

end Sys2Proof
end

