-- ==== Sys2Proof/WellFormed.lean ====
section
/-! DEFINITION. Which terms are well formed. The operands of `Instr` have exactly the widths of their fields (R55, R57),
so every command term is well formed; the checks that exist are those of the assembler on the operands a line writes
(R63, R65). -/

namespace Sys2Proof

/-- Every command is well formed: each operand type is its field's width, and every value of a field is legal (R57,
R61), `idx` 254 and 255 among them (R36, R65). -/
def Instr.wellFormed : Instr → Bool
  | .bufwr _ _ => true
  | .sendraw => true
  | .sendchr => true
  | .sendnum _ => true
  | .latch => true
  | .enable => true
  | .disable => true
  | .bright _ => true
  | .tonormal => true
  | .tospecial => true
  | .nop => true
  | .reservedB => true
  | .reservedC => true
  | .reservedD => true
  | .reservedE => true
  | .reservedF => true

/-- The refusal for operands of which one exceeds `max`. -/
def rangeError (max : Nat) (operands : List Nat) : Option AsmError :=
  if operands.all (· ≤ max) then none else some .operandOutOfRange

/-- Why the assembler refuses the bytes of a frame, if it does (R64, R65); the length is named before
the range (DESIGN CHOICE, log entry 14). -/
def frameError (bytes : List Nat) : Option AsmError :=
  if bytes.length = 0 ∨ 254 < bytes.length then some .frameLength else rangeError 255 bytes

/-- Why the assembler refuses a statement for a chain of `n` chips, if it does (R63, R65). DESIGN CHOICE (log entry
14): of two faults the length is named before the range, `SHOWRAW 1, 2, 300` with `N = 2` being refused for its length;
R65 does not say which. -/
def AsmStmt.error? (n : Nat) : AsmStmt → Option AsmError
  | .bufwr idx byte => rangeError 255 [idx, byte]
  | .sendnum num => rangeError 65535 [num]
  | .bright level => rangeError 255 [level]
  | .shownum num => rangeError 65535 [num]
  | .frame bytes => frameError bytes
  | .showraw bytes => if bytes.length ≠ n then some .showLength else frameError bytes
  | .showstr codes => if codes.length ≠ n then some .showLength else frameError codes
  | .sendraw => none
  | .sendchr => none
  | .latch => none
  | .enable => none
  | .disable => none
  | .tonormal => none
  | .tospecial => none
  | .nop => none

/-- The assembler accepts the statement for a chain of `n` chips. -/
def AsmStmt.wellFormed (n : Nat) (a : AsmStmt) : Bool := (a.error? n).isNone

end Sys2Proof
end

