-- ==== Sys2Proof/Decode.lean ====
section
/-! DEFINITION. The decoder, total on every word and on any bytes (R55 to R62), and the encoder after it (R55, R63). -/

namespace Sys2Proof

/-- `word[23:16]` (R57). -/
def idxField (w : Word) : BitVec 8 := w.extractLsb' 16 8

/-- `word[7:0]` (R57). -/
def byteField (w : Word) : Byte := w.extractLsb' 0 8

/-- `word[15:0]` (R57). -/
def numField (w : Word) : BitVec 16 := w.extractLsb' 0 16

/-- The command a word stands for (R58): `OPC = word[31:28]` alone selects it, bit 31 first, over all 16 values; every
other bit is an operand or ignored (R60). -/
def decodeWord (w : Word) : Instr :=
  match w.getLsbD 31, w.getLsbD 30, w.getLsbD 29, w.getLsbD 28 with
  | false, false, false, false => .nop
  | false, false, false, true => .bufwr (idxField w) (byteField w)
  | false, false, true, false => .sendraw
  | false, false, true, true => .sendchr
  | false, true, false, false => .sendnum (numField w)
  | false, true, false, true => .latch
  | false, true, true, false => .enable
  | false, true, true, true => .disable
  | true, false, false, false => .bright (byteField w)
  | true, false, false, true => .tonormal
  | true, false, true, false => .tospecial
  | true, false, true, true => .reservedB
  | true, true, false, false => .reservedC
  | true, true, false, true => .reservedD
  | true, true, true, false => .reservedE
  | true, true, true, true => .reservedF

/-- Why the bytes of a byte-wide host link give no command. Raised by `decode`, safe: no word is made up. -/
inductive DecodeError where
  /-- Fewer than the four bytes of a word (R55, R56: the host delivers whole words). -/
  | truncated
deriving DecidableEq, Repr

/-- The word a byte-wide host link carries in four bytes, bits 7:0 first and bits 31:24 last (R42). -/
def wordOfBytes (b0 b1 b2 b3 : Byte) : Word :=
  b3.setWidth 32 <<< 24 ||| b2.setWidth 32 <<< 16 ||| b1.setWidth 32 <<< 8 ||| b0.setWidth 32

/-- The bytes of a word in the order a byte-wide host link sends them (R42). -/
def bytesOfWord (w : Word) : List Byte :=
  [w.extractLsb' 0 8, w.extractLsb' 8 8, w.extractLsb' 16 8, w.extractLsb' 24 8]

/-- The decoder over bytes: one command and the bytes after it. Every command is four bytes (R62). -/
def decode : List Byte → Except DecodeError (Instr × List Byte)
  | b0 :: b1 :: b2 :: b3 :: rest => .ok (decodeWord (wordOfBytes b0 b1 b2 b3), rest)
  | _ => .error .truncated

/-- The instruction the decoder reads from an instruction whose bits are `w`, bit 0 the least significant bit of the
word and every bit above `nbits` 0; the word goes through the byte decoder in the order of R42. -/
def decodeTableWord (nbits w : Nat) : Option Instr :=
  match decode (bytesOfWord (BitVec.ofNat 32 (w % 2 ^ nbits))) with
  | .ok (i, _) => some i
  | .error _ => none

/-- `OPC` of each command (R58). -/
def Instr.opc : Instr → BitVec 4
  | .nop => 0x0
  | .bufwr _ _ => 0x1
  | .sendraw => 0x2
  | .sendchr => 0x3
  | .sendnum _ => 0x4
  | .latch => 0x5
  | .enable => 0x6
  | .disable => 0x7
  | .bright _ => 0x8
  | .tonormal => 0x9
  | .tospecial => 0xA
  | .reservedB => 0xB
  | .reservedC => 0xC
  | .reservedD => 0xD
  | .reservedE => 0xE
  | .reservedF => 0xF

/-- `IDX` as the assembler writes it: zero where the command ignores it (R60, R63). -/
def Instr.idx : Instr → BitVec 8
  | .bufwr idx _ => idx
  | .sendraw | .sendchr | .sendnum _ | .latch | .enable | .disable | .bright _ | .tonormal | .tospecial | .nop
  | .reservedB | .reservedC | .reservedD | .reservedE | .reservedF => 0

/-- `DATA` as the assembler writes it: zero where the command ignores it (R60, R63). -/
def Instr.data : Instr → BitVec 16
  | .bufwr _ byte => byte.setWidth 16
  | .sendnum num => num
  | .bright level => level.setWidth 16
  | .sendraw | .sendchr | .latch | .enable | .disable | .tonormal | .tospecial | .nop
  | .reservedB | .reservedC | .reservedD | .reservedE | .reservedF => 0

/-- The word of a command: `OPC << 28 | RSV << 24 | IDX << 16 | DATA` with `RSV = 0` (R55, R60, R63). -/
def encode (i : Instr) : Word :=
  i.opc.setWidth 32 <<< 28 ||| i.idx.setWidth 32 <<< 16 ||| i.data.setWidth 32

end Sys2Proof
end

