-- ==== Sys2Proof/Config.lean ====
section
/-! DEFINITION. What an implementation of the engine fixes (00_scope.md R6): the types of its parameters, the defaults
the spec states, and the two parameters the spec leaves OPEN, as opaque constants that no proof can evaluate. -/

namespace Sys2Proof

/-- A line level, `L` or `H` (R9). -/
inductive Level where
  | low
  | high
deriving DecidableEq, Repr

/-- `XPORT`: who drives `SDI` and `CLK` during a byte (R16). -/
inductive Xport where
  | emulated
  | delegated
deriving DecidableEq, Repr

/-- `P_PWM_AFTER_SWITCH`: what a mode switch does to an active PWM (R92, C8). -/
inductive PwmAfterSwitch where
  | demote
  | resume
deriving DecidableEq, Repr

/-- `pwmSense`: which level the duty fraction `d/255` counts (R89). -/
inductive PwmSense where
  | highTime
  | activeTime
deriving DecidableEq, Repr, Inhabited

/-- The operating mode of the chips, and the target of a mode switch (R90, R101). -/
inductive ChipMode where
  | normal
  | special
deriving DecidableEq, Repr

/-- The configuration inputs, sampled at reset (R6, R14, R125: `CFG_CHAIN_LEN`, `CFG_XPORT`, `CFG_OEP`). -/
structure ConfigInputs where
  /-- An unbounded integer of either sign (R15, D29). -/
  chainLengthReq : Int
  xport : Xport
  /-- Is the output-enable line present. -/
  oep : Bool
deriving DecidableEq, Repr

/-- The parameters of R6 for which the spec states a default. They are data, so that a statement about every state
is a statement about every value of them (log entry 2). -/
structure Params where
  /-- `P_SUSPEND_LEVEL` (R71, C1). -/
  suspendLevel : Level
  /-- `P_SPECIAL_EXTRA_PULSE` (R94, C2). -/
  specialExtraPulse : Bool
  /-- `P_PWM_AFTER_SWITCH` (R92, C8). -/
  pwmAfterSwitch : PwmAfterSwitch
  /-- `chipPowerOnMode`, read only by the chain model (R107). -/
  chipPowerOnMode : ChipMode
deriving DecidableEq, Repr

namespace Config

/-- The segment ROM `SEG[0..95]` (R37): OPEN, its contents are in no source (D19). A free value: nothing can
evaluate it (log entry 4). -/
opaque seg : Fin 96 → Byte

/-- `pwmSense` (R89): OPEN (D14). A free value, read only by the chain model (log entry 5). -/
opaque pwmSense : PwmSense

/-- The defaults R6 states for the parameters that have one. -/
def defaultParams : Params where
  suspendLevel := .low
  specialExtraPulse := false
  pwmAfterSwitch := .demote
  chipPowerOnMode := .normal

/-- The configuration inputs at `State.reset`. DESIGN CHOICE, unsafe (log entry 1): the spec says only that they are
supplied at configuration. It is the shape most of the spec's own vectors use, `cfg(2, EMULATED, OEP)`. -/
def bootInputs : ConfigInputs where
  chainLengthReq := 2
  xport := .emulated
  oep := true

/-- `busClockHz` (R6): the clock of the delegated transport. Timing only: no rule of the model depends on it (R145). -/
def busClockHz : Nat := 10000000

/-- The least clock time of one delegated byte, in nanoseconds: 8 clock periods (R145). -/
def delegatedByteNs : Nat := 8 * (1000000000 / busClockHz)

end Config

end Sys2Proof
end

