-- ==== Sys2Proof/Machine/Lines.lean ====
section
/-! DEFINITION. The four output lines, the line events and what each event does to the lines (R9, R24, R28). -/

namespace Sys2Proof.Machine

/-- The value of `SDI` or `CLK`: a level, or `X`, "not driven by the engine; level unknown" (R9, D33). -/
inductive Wire where
  | driven (v : Level)
  | x
deriving DecidableEq, Repr

/-- What can drive the output-enable line, active low: a level, or the PWM waveform of level `d` (R9, R89). -/
inductive OeDrive where
  | low
  | high
  | pwm (d : Byte)
deriving DecidableEq, Repr

/-- The event alphabet (R28). -/
inductive Event where
  | sdi (v : Level)
  | clk (v : Level)
  | le (v : Level)
  | oe (v : OeDrive)
  | busBegin
  | busEnd
  | busClose
  | busOpen
deriving DecidableEq, Repr

/-- The values of the four lines (R24). -/
structure Lines where
  sdi : Wire
  clk : Wire
  le : Level
  /-- `none` is the absent line, `NONE` (R9). -/
  oe : Option OeDrive
deriving DecidableEq, Repr

/-- A level of the output-enable line. -/
def OeDrive.ofLevel : Level → OeDrive
  | .low => .low
  | .high => .high

/-- Data bit 1 is `H` (R24, R68). -/
def levelOfBit (b : Bool) : Level := if b then .high else .low

/-- The effect of an event on the lines (R28). -/
def Lines.after (l : Lines) : Event → Lines
  | .sdi v => { l with sdi := .driven v }
  | .clk v => { l with clk := .driven v }
  | .le v => { l with le := v }
  | .oe v => { l with oe := some v }
  | .busBegin => l
  | .busEnd => { l with sdi := .x }
  | .busClose => { l with sdi := .x }
  | .busOpen => l

/-- The effect of events in order (R10, R49). -/
def Lines.afterAll (l : Lines) (es : List Event) : Lines := es.foldl Lines.after l

/-- The effect of an event on `BUSOWN`: only `BUS_OPEN` and `BUS_CLOSE` write it (R25, R28). -/
def busOwnAfter (own : Bool) : Event → Bool
  | .busClose => false
  | .busOpen => true
  | .sdi _ => own
  | .clk _ => own
  | .le _ => own
  | .oe _ => own
  | .busBegin => own
  | .busEnd => own

/-- Is the event a rising edge of the clock. -/
def Event.isRise : Event → Bool
  | .clk .high => true
  | .clk .low => false
  | .sdi _ => false
  | .le _ => false
  | .oe _ => false
  | .busBegin => false
  | .busEnd => false
  | .busClose => false
  | .busOpen => false

end Sys2Proof.Machine
end

