-- ==== Sys2Proof/Machine/Chain.lean ====
section
/-! DEFINITION. The chip chain, the passive environment of the engine (45_chain_observer.md, R101 to R112). No rule of
the engine reads it. -/

namespace Sys2Proof.Machine

/-- A bit of a chip register: `0`, `1`, or `?` where no source says (R101). -/
inductive ChipBit where
  | zero
  | one
  | unknown
deriving DecidableEq, Repr

/-- An 8-bit register of a chip, bit by bit (R101). -/
structure ChipByte where
  b0 : ChipBit
  b1 : ChipBit
  b2 : ChipBit
  b3 : ChipBit
  b4 : ChipBit
  b5 : ChipBit
  b6 : ChipBit
  b7 : ChipBit
deriving DecidableEq, Repr

/-- The three registers of a chip: shift, output-driving, configuration (R101). -/
structure Chip where
  sr : ChipByte
  outr : ChipByte
  cfgr : ChipByte
deriving DecidableEq, Repr

/-- The chain: the chip at position `k` is entry `k`, position 0 nearest the engine (R76), and the one mode all chips
share (R101). -/
structure Chain where
  chips : List Chip
  mode : ChipMode
deriving DecidableEq, Repr

/-- A known bit. -/
def ChipBit.ofBool (b : Bool) : ChipBit := if b then .one else .zero

/-- The bit a chip sees on its data input: `H` is 1, `L` is 0, `X` is `?` (R102, R110). -/
def ChipBit.ofWire : Wire → ChipBit
  | .driven .high => .one
  | .driven .low => .zero
  | .x => .unknown

/-- The register that holds byte `b`. -/
def ChipByte.ofByte (b : Byte) : ChipByte where
  b0 := .ofBool (b.getLsbD 0)
  b1 := .ofBool (b.getLsbD 1)
  b2 := .ofBool (b.getLsbD 2)
  b3 := .ofBool (b.getLsbD 3)
  b4 := .ofBool (b.getLsbD 4)
  b5 := .ofBool (b.getLsbD 5)
  b6 := .ofBool (b.getLsbD 6)
  b7 := .ofBool (b.getLsbD 7)

/-- A register of which nothing is known. -/
def ChipByte.unknown : ChipByte :=
  ⟨.unknown, .unknown, .unknown, .unknown, .unknown, .unknown, .unknown, .unknown⟩

/-- `(t << 7) | (r >> 1)`: the new bit enters at bit 7 (R102). -/
def ChipByte.shiftIn (r : ChipByte) (t : ChipBit) : ChipByte :=
  ⟨r.b1, r.b2, r.b3, r.b4, r.b5, r.b6, r.b7, t⟩

/-- A chip of which nothing is known (R109). -/
def Chip.unknown : Chip := ⟨.unknown, .unknown, .unknown⟩

/-- One rising edge shifts every chip at once: chip `k` takes in what left bit 0 of chip `k - 1` before the edge (R102). -/
def shiftChips (t : ChipBit) : List Chip → List Chip
  | [] => []
  | c :: cs => { c with sr := c.sr.shiftIn t } :: shiftChips c.sr.b0 cs

/-- What a completed latch pulse copies in one chip: to the output register in normal mode (R105), to the configuration
register in special mode (R106). -/
def Chip.latched (m : ChipMode) (c : Chip) : Chip :=
  match m with
  | .normal => { c with outr := c.sr }
  | .special => { c with cfgr := c.sr }

/-- A completed latch pulse (R105, R106). -/
def Chain.latched (c : Chain) : Chain := { c with chips := c.chips.map (Chip.latched c.mode) }

/-- All registers `?`: what R112 asks of a form the engine never emits. The mode is kept (log entry 8). -/
def Chain.lost (c : Chain) : Chain := { c with chips := c.chips.map fun _ => Chip.unknown }

/-- What one chip holds after a handshake to `target` (R107). -/
def Chip.afterHandshake (target : ChipMode) (c : Chip) : Chip :=
  match target with
  | .normal => { c with sr := .unknown }
  | .special => .unknown

/-- The effect of a whole handshake, taken as one unit (R107). -/
def Chain.afterHandshake (target : ChipMode) (c : Chain) : Chain where
  chips := c.chips.map (Chip.afterHandshake target)
  mode := target

/-- What the chain does on one event outside a handshake, the lines standing at `l` before it. A rising edge shifts
(R102); the latch copies at the end of a pulse (R105). A rising edge with `LE` high, or a second `LE(H)`, is a form the
engine never emits outside a handshake, and loses the registers (R112); so at `LE(L)` no edge has come since `LE(H)`
unless everything is `?` already. Of the forms of R112 this leaves one: a whole latch pulse between the bits of a transfer,
with no edge while `LE` is high, which R112 and I8 also leave at any value. DESIGN CHOICE (log entry 8): it is taken as an
ordinary latch pulse, since the chain sees edges and not where a byte begins; no command emits it (R82). Enable events and bus markers do nothing (R103). -/
def Chain.observe (c : Chain) (l : Lines) : Event → Chain
  | .clk .high =>
    match l.le with
    | .low => { c with chips := shiftChips (.ofWire l.sdi) c.chips }
    | .high => c.lost
  | .clk .low => c
  | .le .high =>
    match l.le with
    | .low => c
    | .high => c.lost
  | .le .low =>
    match l.le with
    | .low => c
    | .high => c.latched
  | .sdi _ => c
  | .oe _ => c
  | .busBegin => c
  | .busEnd => c
  | .busClose => c
  | .busOpen => c

/-- What the chain does on events in order, outside a handshake (R49, R102). -/
def Chain.observeAll (c : Chain) (l : Lines) : List Event → Chain
  | [] => c
  | e :: es => (c.observe l e).observeAll (l.after e) es

/-- The chain at power-on: every bit `?`, the mode `chipPowerOnMode` (R107, R109). -/
def Chain.powerOn (n : Nat) (mode : ChipMode) : Chain where
  chips := List.replicate n .unknown
  mode := mode

/-- The chain seen over the first `n` positions, positions it did not have being `?`. An engine reset keeps the chain
(R109); this matters only where a reset samples another chain length (log entry 7). -/
def Chain.resize (n : Nat) (c : Chain) : Chain :=
  { c with chips := c.chips.take n ++ List.replicate (n - c.chips.length) .unknown }

/-- What a chip shows (R108). -/
inductive Shown where
  /-- The outputs are driven from this register. -/
  | driven (outr : ChipByte)
  /-- No output is driven. -/
  | off
  /-- Driven from this register for `on / 255` of each PWM period, not driven for the rest. -/
  | dimmed (outr : ChipByte) (on : Nat)
  /-- No source says. -/
  | unknown
deriving DecidableEq, Repr

/-- `255 * on(d)` (R108): the part of a PWM period in which `OE` is low. -/
def pwmOn (sense : PwmSense) (d : Byte) : Nat :=
  match sense with
  | .activeTime => d.toNat
  | .highTime => 255 - d.toNat

/-- What a duty of `on / 255` shows; fractions 0 and 1 are steady levels (R89). -/
def Shown.ofDuty (outr : ChipByte) (on : Nat) : Shown :=
  if on = 0 then .off else if on = 255 then .driven outr else .dimmed outr on

/-- What a chip with output register `outr` shows (R108). -/
def Shown.ofLine (sense : PwmSense) (mode : ChipMode) (oe : Option OeDrive) (outr : ChipByte) : Shown :=
  match mode, oe with
  | .normal, some .low => .driven outr
  | .normal, some .high => .off
  | .normal, some (.pwm d) => .ofDuty outr (pwmOn sense d)
  | .normal, none => .unknown
  | .special, _ => .unknown

/-- What the chip at position `k` shows; a position the chain does not have shows nothing known. -/
def Chain.shown (sense : PwmSense) (oe : Option OeDrive) (c : Chain) (k : Nat) : Shown :=
  match c.chips[k]? with
  | some chip => .ofLine sense c.mode oe chip.outr
  | none => .unknown

end Sys2Proof.Machine
end

