-- ==== Sys2Proof/Machine/Engine.lean ====
section
/-! DEFINITION. The engine's state record (R12) and its values after reset (R33, R130). -/

namespace Sys2Proof.Machine

/-- `ENSTATE` (R18). The fourth pattern `0b11` is reached by no rule and dropped (I13, log entry 12). -/
inductive EnState where
  | disabled
  | enabled
  | pwmEnabled
deriving DecidableEq, Repr

/-- The 2-bit encoding of `ENSTATE` (R18). -/
def EnState.code : EnState → BitVec 2
  | .disabled => 0b00
  | .enabled => 0b01
  | .pwmEnabled => 0b10

/-- The frame buffer as a list of (index, byte): indices strictly rising and below 254, no entry equal to the value an
unlisted index reads as (R35; Memory.wf in Machine/Ops.lean says so). -/
abbrev Memory := List Host.Cell

/-- `CFG` (R14). -/
structure Cfg where
  /-- The chain length, 1..254 after every reset (R15). -/
  n : Nat
  xport : Xport
  oep : Bool
deriving DecidableEq, Repr

/-- The engine: one record (R12), and the implementation parameters that are constant after reset (R6). -/
structure Engine where
  cfg : Cfg
  params : Params
  enstate : EnState
  bright : Byte
  fb : Memory
  lines : Lines
  busOwn : Bool
  /-- Every event emitted since reset, oldest first (R27). -/
  trace : List Event
deriving DecidableEq, Repr

/-- `clamp(chainLengthReq, 1, 254)` (R8, R15). -/
def clampChainLength (req : Int) : Nat := (min (max req 1) 254).toNat

/-- `CFG` as reset samples it (R14, R15, R130). -/
def Cfg.sample (i : ConfigInputs) : Cfg where
  n := clampChainLength i.chainLengthReq
  xport := i.xport
  oep := i.oep

/-- The lines at reset (R24, R33, R130). -/
def Lines.afterReset (c : Cfg) : Lines where
  sdi :=
    match c.xport with
    | .emulated => .driven .low
    | .delegated => .x
  clk := .driven .low
  le := .low
  oe := if c.oep then some .high else none

/-- The engine after the reset sequence (R33, R130). Reset emits no events. -/
def Engine.afterReset (i : ConfigInputs) (p : Params) : Engine where
  cfg := .sample i
  params := p
  enstate := .disabled
  bright := 0x00
  fb := []
  lines := .afterReset (.sample i)
  busOwn := decide (i.xport = .delegated)
  trace := []

end Sys2Proof.Machine
end

