-- ==== Sys2Proof/Machine/State.lean ====
section
/-! DEFINITION. The state of the machine: the engine, the chip chain it drives, and the host side of its ports (R5);
the reasons a step can stop; and the state right after reset. -/

namespace Sys2Proof.Machine

/-- The faults of the engine: there are none. No command traps, faults or reports an error (R113), and "the model's
fault outcome is therefore never produced by the engine" (R116). Nothing raises one; safe (log entry 11). -/
inductive Fault where
deriving DecidableEq, Repr

/-- The refusals. -/
inductive Refusal where
  /-- An instruction without a meaning yet, by its mnemonic. Raised by an arm of `exec` only, safe; no arm raises it now. -/
  | notModelled (mnemonic : String)
deriving DecidableEq, Repr

/-- The host side: the program it delivers, how far it is, and the input ports it drives (R31, R125). -/
structure HostPort where
  /-- `prog[0..M-1]`, the words the host delivers in order (R31). -/
  prog : List Word
  /-- The host's command pointer (R31). -/
  cp : Nat
  /-- The level of the `RST` input (R129). Only the host changes it. -/
  rst : Bool
  /-- The configuration inputs (R125). Only the host changes them; only a reset reads them. -/
  inputs : ConfigInputs
deriving DecidableEq, Repr

/-- The machine. That no rule of the engine reads the chain (R23, R111) is visible in the types: a command's effect on
the engine is a function of `Engine` alone. -/
structure State where
  engine : Engine
  chain : Chain
  host : HostPort
deriving DecidableEq, Repr

/-- The machine at power-on, which counts as a reset (R129), with the given inputs and parameters: the engine after its
reset sequence (R33), the chain at power-on (R109), no program loaded (log entry 3), `cp = 0` (R33), `RST` released. -/
def State.powerOn (i : ConfigInputs) (p : Params) : State where
  engine := .afterReset i p
  chain := .powerOn (clampChainLength i.chainLengthReq) p.chipPowerOnMode
  host := { prog := [], cp := 0, rst := false, inputs := i }

/-- The machine right after reset, at the named configuration inputs (DESIGN CHOICE, log entry 1) and the spec's default
parameters. -/
def State.reset : State := .powerOn Config.bootInputs Config.defaultParams

end Sys2Proof.Machine
end

