-- ==== Sys2Proof/Machine/Flags.lean ====
section
/-! DEFINITION. The engine has no flags, condition codes or status bits (R22), so no command computes one. The two
Booleans of the source are views of `ENSTATE` (R19); they stand here. -/

namespace Sys2Proof.Machine

/-- `displayEnabled` (R19). -/
def EnState.displayEnabled (st : EnState) : Bool := decide (st ≠ .disabled)

/-- `brightnessPwmActive` (R19). -/
def EnState.brightnessPwmActive (st : EnState) : Bool := decide (st = .pwmEnabled)

end Sys2Proof.Machine
end

