-- ==== Sys2Proof/Machine/Ops.lean ====
section
/-! DEFINITION. The named operations over the frame buffer, the lines and the trace, and how a command's events reach
the chain. The engine has no exception, so there is none to take and none to return from (R113, R119, R120). -/

namespace Sys2Proof.Machine

/-- The value of a frame-buffer entry: an unlisted one holds its reset value `0x00` (R35, log entry 13). -/
def Memory.read (m : Memory) (a : Nat) : Byte :=
  match m with
  | [] => 0x00
  | (k, v) :: rest => if k = a then v else Memory.read rest a

/-- The memory without index `a`. -/
def Memory.erase (m : Memory) (a : Nat) : Memory :=
  match m with
  | [] => []
  | (k, v) :: rest => if k = a then Memory.erase rest a else (k, v) :: Memory.erase rest a

/-- Index `a` put in its place. -/
def Memory.insert (m : Memory) (a : Nat) (v : Byte) : Memory :=
  match m with
  | [] => [(a, v)]
  | (k, w) :: rest => if a < k then (a, v) :: (k, w) :: rest else (k, w) :: Memory.insert rest a v

/-- `FB[a] <- v`, in canonical form: writing `0x00` leaves no entry. -/
def Memory.write (m : Memory) (a : Nat) (v : Byte) : Memory :=
  if v = 0x00 then Memory.erase m a else Memory.insert (Memory.erase m a) a v

/-- The canonical form from index `lo` on. -/
def Memory.wfFrom (lo : Nat) : Memory → Bool
  | [] => true
  | (k, v) :: rest => decide (lo ≤ k) && decide (k < 254) && decide (v ≠ 0x00) && Memory.wfFrom (k + 1) rest

/-- The canonical form: indices strictly rising and below 254 (R35), no entry equal to what an unlisted one reads as. -/
def Memory.wf (m : Memory) : Bool := Memory.wfFrom 0 m

/-- `emit(e)` (R10, R27, R28): append `e` to the trace, then apply its effect on the lines and `BUSOWN`. -/
def Engine.emit (e : Event) (g : Engine) : Engine :=
  { g with trace := g.trace ++ [e], lines := g.lines.after e, busOwn := busOwnAfter g.busOwn e }

/-- The write of `BUFWR`: `idx` 254 and 255 address no entry (R36, R77). -/
def Engine.writeFb (idx : BitVec 8) (byte : Byte) (g : Engine) : Engine :=
  if idx.toNat ≤ 253 then { g with fb := g.fb.write idx.toNat byte } else g

/-- One transition of the enable controller (R84): with the line present, drive it and set `ENSTATE`; without it,
nothing (R88). -/
def Engine.driveEnable (v : OeDrive) (st : EnState) (g : Engine) : Engine :=
  if g.cfg.oep then { g.emit (.oe v) with enstate := st } else g

/-- The events an engine action appended to the trace (R27: nothing is ever removed). -/
def Engine.newEvents (before after : Engine) : List Event := after.trace.drop before.trace.length

/-- A command whose events the chain sees one by one, in the order of the trace (R30, R49, R102). -/
def State.driving (f : Engine → Engine) (s : State) : State :=
  { s with
    engine := f s.engine
    chain := s.chain.observeAll s.engine.lines (Engine.newEvents s.engine (f s.engine)) }

/-- A mode switch, whose events the chain takes as one unit (R107); without the enable line there is no handshake
(R98). -/
def State.handshaking (target : ChipMode) (f : Engine → Engine) (s : State) : State :=
  { s with
    engine := f s.engine
    chain := if s.engine.cfg.oep then s.chain.afterHandshake target else s.chain }

/-- A command that does nothing (R59). -/
def State.noOperation (s : State) : State := s

end Sys2Proof.Machine
end

