-- ==== Sys2Proof/Machine/Operands.lean ====
section
/-! DEFINITION. The bytes the frame commands pass to the one shift-and-latch primitive (R83): frame entries, segment
patterns, the bytes of a number. -/

namespace Sys2Proof.Machine

/-- `SEGMAP(c)` (R38): the segment ROM for codes 32..127, the blank pattern for every other code. -/
def segmap (c : Byte) : Byte :=
  if h : 32 ≤ c.toNat ∧ c.toNat ≤ 127 then Config.seg ⟨c.toNat - 32, by omega⟩ else 0x00

/-- `f (n-1), ..., f 0`: a frame goes out last chip first (R40, R76). -/
def frameBytes (f : Nat → Byte) : Nat → List Byte
  | 0 => []
  | n + 1 => f n :: frameBytes f n

/-- `(num >> 8*j) & 0xFF` (R80). -/
def numByte (num : BitVec 16) (j : Nat) : Byte := (num >>> (8 * j)).setWidth 8

/-- The first `min(n, 2)` bytes of a number, least significant first (R41, R80, D16). -/
def numBytes (num : BitVec 16) (n : Nat) : List Byte := (List.range (min n 2)).map (numByte num)

end Sys2Proof.Machine
end

