-- ==== Sys2Proof/Machine/Transport.lean ====
section
/-! DEFINITION. Byte transport and pulse primitives (40_transport.md). They are no commands; the commands are written
in terms of them. -/

namespace Sys2Proof.Machine

/-- `PULSE()` (R66). -/
def Engine.pulse (g : Engine) : Engine := (g.emit (.clk .high)).emit (.clk .low)

/-- `LATCH_PULSE()` (R67). -/
def Engine.latchPulse (g : Engine) : Engine := (g.emit (.le .high)).emit (.le .low)

/-- One bit of a transfer: the data level, then a clock pulse (R68). -/
def Engine.shiftBit (b : Byte) (g : Engine) (i : Nat) : Engine :=
  (g.emit (.sdi (levelOfBit (b.getLsbD i)))).pulse

/-- `XFER_EMU(b)` (R68): bits 0 to 7, least significant first (R39). -/
def Engine.xferEmulated (b : Byte) (g : Engine) : Engine := (List.range 8).foldl (Engine.shiftBit b) g

/-- `XFER_DEL(b)` (R69): the same bits inside one bus transaction. The byte read back is discarded (R111). -/
def Engine.xferDelegated (b : Byte) (g : Engine) : Engine :=
  ((g.emit .busBegin).xferEmulated b).emit .busEnd

/-- `XFER(b)`, chosen by `CFG.XPORT` (R16, R71). -/
def Engine.xfer (b : Byte) (g : Engine) : Engine :=
  match g.cfg.xport with
  | .emulated => g.xferEmulated b
  | .delegated => g.xferDelegated b

/-- `emit(OE(P_SUSPEND_LEVEL))` (R71, R92). -/
def Engine.suspendPwm (g : Engine) : Engine := g.emit (.oe (.ofLevel g.params.suspendLevel))

/-- `emit(OE(PWM(BRIGHT)))` (R71, R95). -/
def Engine.restorePwm (g : Engine) : Engine := g.emit (.oe (.pwm g.bright))

/-- `SEND_BYTE(b)` (R71): PWM is suspended for one transfer and restored at the remembered level (R72, R135). -/
def Engine.sendByte (b : Byte) (g : Engine) : Engine :=
  if g.enstate.brightnessPwmActive then ((g.suspendPwm).xfer b).restorePwm else g.xfer b

/-- The one shift-and-latch primitive of the frame commands (R82, R83): the bytes in order, then one latch pulse. -/
def Engine.shiftAndLatch (bytes : List Byte) (g : Engine) : Engine :=
  (bytes.foldl (fun g b => g.sendByte b) g).latchPulse

end Sys2Proof.Machine
end

