-- ==== Sys2Proof/Machine/DataShift.lean ====
section
/-! DEFINITION. Data shift and latch commands (41_data_shift.md). -/

namespace Sys2Proof.Machine

/-- `BUFWR idx, byte` (R77): no event, no line, one frame-buffer entry. -/
def execBufwr (idx : BitVec 8) (byte : Byte) (s : State) : Host.Outcome State Fault Refusal :=
  .next { s with engine := s.engine.writeFb idx byte }

/-- `SENDRAW` (R78): `FB[N-1]` down to `FB[0]`, then a latch pulse. All entries are of one `FB` version (R45). -/
def execSendraw (s : State) : Host.Outcome State Fault Refusal :=
  .next (s.driving fun g => g.shiftAndLatch (frameBytes g.fb.read g.cfg.n))

/-- `SENDCHR` (R79): the same frame through the segment ROM. -/
def execSendchr (s : State) : Host.Outcome State Fault Refusal :=
  .next (s.driving fun g => g.shiftAndLatch (frameBytes (fun i => segmap (g.fb.read i)) g.cfg.n))

/-- `SENDNUM num` (R80): at most two bytes, least significant first, then a latch pulse. -/
def execSendnum (num : BitVec 16) (s : State) : Host.Outcome State Fault Refusal :=
  .next (s.driving fun g => g.shiftAndLatch (numBytes num g.cfg.n))

/-- `LATCH` (R81): one latch pulse and nothing else. -/
def execLatch (s : State) : Host.Outcome State Fault Refusal :=
  .next (s.driving Engine.latchPulse)

end Sys2Proof.Machine
end

