-- ==== Sys2Proof/Machine/EnableBrightness.lean ====
section
/-! DEFINITION. Output-enable and brightness commands (42_enable_brightness.md). `OE` is active low (R24). -/

namespace Sys2Proof.Machine

/-- The engine's part of `BRIGHT d` (R87). -/
def Engine.setBrightness (d : Byte) (g : Engine) : Engine :=
  if g.cfg.oep then { g.driveEnable (.pwm d) .pwmEnabled with bright := d } else g

/-- `ENABLE` (R85). -/
def execEnable (s : State) : Host.Outcome State Fault Refusal :=
  .next (s.driving (Engine.driveEnable .low .enabled))

/-- `DISABLE` (R86). -/
def execDisable (s : State) : Host.Outcome State Fault Refusal :=
  .next (s.driving (Engine.driveEnable .high .disabled))

/-- `BRIGHT level` (R87). -/
def execBright (level : Byte) (s : State) : Host.Outcome State Fault Refusal :=
  .next (s.driving (Engine.setBrightness level))

end Sys2Proof.Machine
end

