-- ==== Sys2Proof/Machine/ModeSwitch.lean ====
section
/-! DEFINITION. Mode-switch handshake commands (43_mode_switch.md). The steps are numbered as in R90. -/

namespace Sys2Proof.Machine

/-- Step 1 (R92): stop an active PWM; under `DEMOTE` the display then counts as plainly enabled. -/
def Engine.stopPwm (g : Engine) : Engine :=
  if g.enstate.brightnessPwmActive then
    match g.params.pwmAfterSwitch with
    | .demote => { g.suspendPwm with enstate := .enabled }
    | .resume => g.suspendPwm
  else g

/-- Step 2 (R91): the delegated transport releases the bus. -/
def Engine.releaseBus (g : Engine) : Engine :=
  match g.cfg.xport with
  | .emulated => g
  | .delegated => g.emit .busClose

/-- Steps 3 to 5 (R93): P1 with `OE = H`, P2 with `OE = L`, P3 with `OE = H`. -/
def Engine.preamble (g : Engine) : Engine :=
  (((((g.emit (.oe .high)).pulse).emit (.oe .low)).pulse).emit (.oe .high)).pulse

/-- Step 6 (R94): P4 and P5 select the target by the level of `LE` during P4; to special, an extra plain pulse may come
first (C2). -/
def Engine.selectMode (target : ChipMode) (g : Engine) : Engine :=
  match target with
  | .normal => g.pulse.pulse
  | .special =>
    let g := if g.params.specialExtraPulse then g.pulse else g
    ((((g.emit (.le .high)).pulse).emit (.le .low)).pulse)

/-- Step 7 (R95): a switch to normal restores the visible enable state as step 1 left it; a switch to special restores
nothing. -/
def Engine.restoreEnable (target : ChipMode) (g : Engine) : Engine :=
  match target, g.enstate with
  | .normal, .enabled => g.emit (.oe .low)
  | .normal, .pwmEnabled => g.restorePwm
  | .normal, .disabled => g
  | .special, _ => g

/-- Step 8 (R91): the delegated transport takes the bus back. -/
def Engine.retakeBus (g : Engine) : Engine :=
  match g.cfg.xport with
  | .emulated => g
  | .delegated => g.emit .busOpen

/-- `MODE_SWITCH(target)` (R90). Without the enable line no event at all (R98). -/
def Engine.modeSwitch (target : ChipMode) (g : Engine) : Engine :=
  if g.cfg.oep then
    ((((g.stopPwm.releaseBus).preamble).selectMode target).restoreEnable target).retakeBus
  else g

/-- `TONORMAL` (R96). It runs whether or not the chips are in normal mode already (R99). -/
def execTonormal (s : State) : Host.Outcome State Fault Refusal :=
  .next (s.handshaking .normal (Engine.modeSwitch .normal))

/-- `TOSPECIAL` (R97). -/
def execTospecial (s : State) : Host.Outcome State Fault Refusal :=
  .next (s.handshaking .special (Engine.modeSwitch .special))

end Sys2Proof.Machine
end

