-- ==== Sys2Proof/Machine/Reserved.lean ====
section
/-! DEFINITION. The reserved opcodes: each is a no-op that changes no register, entry or line and emits no event (R59).
The licence to refuse them (I7) is not used (log entry 10). -/

namespace Sys2Proof.Machine

/-- `NOP`, opcode `0x0` (R59, R64). -/
def execNop (s : State) : Host.Outcome State Fault Refusal := .next s.noOperation

/-- Opcode `0xB` (R59). -/
def execReservedB (s : State) : Host.Outcome State Fault Refusal := .next s.noOperation

/-- Opcode `0xC` (R59). -/
def execReservedC (s : State) : Host.Outcome State Fault Refusal := .next s.noOperation

/-- Opcode `0xD` (R59). -/
def execReservedD (s : State) : Host.Outcome State Fault Refusal := .next s.noOperation

/-- Opcode `0xE` (R59). -/
def execReservedE (s : State) : Host.Outcome State Fault Refusal := .next s.noOperation

/-- Opcode `0xF` (R59). -/
def execReservedF (s : State) : Host.Outcome State Fault Refusal := .next s.noOperation

end Sys2Proof.Machine
end

