-- ==== Sys2Proof/Machine/Dispatch.lean ====
section
/-! DEFINITION. One arm per constructor of Instr, each one direct call of its meaning. -/

namespace Sys2Proof.Machine

def exec (i : Instr) (s : State) : Host.Outcome State Fault Refusal :=
  match i with
  | .bufwr idx byte => Sys2Proof.Machine.execBufwr idx byte s
  | .sendraw => Sys2Proof.Machine.execSendraw s
  | .sendchr => Sys2Proof.Machine.execSendchr s
  | .sendnum num => Sys2Proof.Machine.execSendnum num s
  | .latch => Sys2Proof.Machine.execLatch s
  | .enable => Sys2Proof.Machine.execEnable s
  | .disable => Sys2Proof.Machine.execDisable s
  | .bright level => Sys2Proof.Machine.execBright level s
  | .tonormal => Sys2Proof.Machine.execTonormal s
  | .tospecial => Sys2Proof.Machine.execTospecial s
  | .nop => Sys2Proof.Machine.execNop s
  | .reservedB => Sys2Proof.Machine.execReservedB s
  | .reservedC => Sys2Proof.Machine.execReservedC s
  | .reservedD => Sys2Proof.Machine.execReservedD s
  | .reservedE => Sys2Proof.Machine.execReservedE s
  | .reservedF => Sys2Proof.Machine.execReservedF s

end Sys2Proof.Machine
end

