-- ==== Sys2Proof/Machine/Port.lean ====
section
/-! DEFINITION. The ports of the engine (R125): how the host's words and its reset reach the engine, and what the host
does from outside between steps. Not a line of it reads the engine's registers (R116). -/

namespace Sys2Proof.Machine

/-- `CMD` while `CMD_VALID` is high: the word at the host's command pointer; `none` when the host offers no word, at the
end of its program (R31, R32, R56). -/
def State.offered (s : State) : Option Word := s.host.prog[s.host.cp]?

/-- `CMD_VALID` (R125). -/
def State.cmdValid (s : State) : Bool := s.offered.isSome

/-- `CMD_READY` (R56, R125, R131): high while the engine is idle, which it is between any two steps (R11), and low while
`RST` is asserted. -/
def State.cmdReady (s : State) : Bool := !s.host.rst

/-- The word the engine takes: one is taken when `CMD_VALID` and `CMD_READY` are both high (R125). -/
def State.fetch (s : State) : Option Word := if s.cmdReady then s.offered else none

/-- `cp <- cp + 1` (R31). -/
def State.advance (s : State) : State := { s with host := { s.host with cp := s.host.cp + 1 } }

/-- What a step makes of a command's outcome: the host's pointer moves on when the command has completed (R31, R56). -/
def advanceOutcome : Host.Outcome State Fault Refusal → Host.Outcome State Fault Refusal
  | .next t => .next t.advance
  | .fault f => .fault f
  | .refused r => .refused r

/-- The reset sequence while `RST` is asserted (R130, R131, R132): `CFG` sampled from the inputs, every other piece of
engine state at its reset value, `cp = 0`. The implementation parameters are constant (R6), the host keeps its program,
and the chain keeps its registers and mode (R109). -/
def State.applyReset (s : State) : State where
  engine := .afterReset s.host.inputs s.engine.params
  chain := s.chain.resize (clampChainLength s.host.inputs.chainLengthReq)
  host := { s.host with cp := 0 }

/-- The host drives `RST` (R125), between two steps. -/
def State.setRst (level : Bool) (s : State) : State := { s with host := { s.host with rst := level } }

/-- The host drives the configuration inputs (R125), between two steps; they take effect at the next reset (R6). -/
def State.setInputs (i : ConfigInputs) (s : State) : State := { s with host := { s.host with inputs := i } }

/-- The host has one more word to deliver (R56), between two steps. -/
def State.offer (w : Word) (s : State) : State := { s with host := { s.host with prog := s.host.prog ++ [w] } }

/-- The host's program with `w` at its command pointer. -/
def placeWord (w : Word) (prog : List Word) (cp : Nat) : List Word :=
  (prog ++ List.replicate (cp - prog.length) 0).take cp ++ w :: prog.drop (cp + 1)

/-- What the chip at position `k` shows now (R108). -/
def State.shown (s : State) (k : Nat) : Shown := s.chain.shown Config.pwmSense s.engine.lines.oe k

end Sys2Proof.Machine
end

