-- ==== Sys2Proof/Machine/Step.lean ====
section
/-! DEFINITION. One step of the machine. -/

namespace Sys2Proof.Machine

/-- One step: the reset sequence while `RST` is asserted (R131); else the next command, executed whole, and the host's
pointer moved on (R31, R56); else, with no word offered, the idle engine keeps its state (R47, R128). -/
def step (s : State) : Host.Outcome State Fault Refusal :=
  if s.host.rst then .next s.applyReset
  else
    match s.fetch with
    | some w => advanceOutcome (exec (decodeWord w) s)
    | none => .next s

/-- `s` with the word of the given bits at the host's command pointer and `RST` released, so that the next step takes
exactly it. -/
def State.withFetchWord (s : State) (nbits w : Nat) : State :=
  { s with
    host :=
      { s.host with
        prog := placeWord (BitVec.ofNat 32 (w % 2 ^ nbits)) s.host.prog s.host.cp
        rst := false } }

end Sys2Proof.Machine
end

