-- ==== Sys2Proof/Machine/Assembler.lean ====
section
/-! DEFINITION. The assembler of the command port (R63 to R65): what a statement assembles to, and how a line of text
reads as a statement. It is the host's tool and no part of the engine; it works on lists of characters. The details of
the text that R63 leaves open (blanks, letter case, characters above code 255), and which of two faults of one line is
named, are DESIGN CHOICES of log entry 14. -/

namespace Sys2Proof.Machine

/-- What the assembler writes: words, and warnings. -/
structure AsmOut where
  words : List Word
  warnings : List AsmWarning
deriving DecidableEq, Repr

/-- `BUFWR k, b0`, `BUFWR k+1, b1`, ... (R64). -/
def frameInstrs (k : Nat) : List Nat → List Instr
  | [] => []
  | b :: bs => .bufwr (BitVec.ofNat 8 k) (BitVec.ofNat 8 b) :: frameInstrs (k + 1) bs

/-- The commands of an accepted statement: itself, or its expansion (R63, R64). -/
def asmInstrs : AsmStmt → List Instr
  | .bufwr idx byte => [.bufwr (BitVec.ofNat 8 idx) (BitVec.ofNat 8 byte)]
  | .sendraw => [.sendraw]
  | .sendchr => [.sendchr]
  | .sendnum num => [.sendnum (BitVec.ofNat 16 num)]
  | .latch => [.latch]
  | .enable => [.enable]
  | .disable => [.disable]
  | .bright level => [.bright (BitVec.ofNat 8 level)]
  | .tonormal => [.tonormal]
  | .tospecial => [.tospecial]
  | .nop => [.nop]
  | .frame bytes => frameInstrs 0 bytes
  | .showraw bytes => frameInstrs 0 bytes ++ [.sendraw]
  | .showstr codes => frameInstrs 0 codes ++ [.sendchr]
  | .shownum num => [.sendnum (BitVec.ofNat 16 num)]

/-- The warnings on an accepted statement: a `BUFWR` whose index is 254 or 255 (R65). -/
def asmWarnings : AsmStmt → List AsmWarning
  | .bufwr idx _ => if idx ≥ 254 then [.ignoredWrite idx] else []
  | .sendraw | .sendchr | .sendnum _ | .latch | .enable | .disable | .bright _ | .tonormal | .tospecial | .nop
  | .frame _ | .showraw _ | .showstr _ | .shownum _ => []

/-- Assemble one statement for a chain of `n` chips, or refuse it by name (R65). -/
def assemble (n : Nat) (a : AsmStmt) : Except AsmError AsmOut :=
  match a.error? n with
  | some e => .error e
  | none => .ok { words := (asmInstrs a).map encode, warnings := asmWarnings a }

/-- The mnemonics of R63 and R64. -/
inductive AsmMnemonic where
  | bufwr
  | sendraw
  | sendchr
  | sendnum
  | latch
  | enable
  | disable
  | bright
  | tonormal
  | tospecial
  | nop
  | frame
  | showraw
  | showstr
  | shownum
deriving DecidableEq, Repr

/-- The mnemonics and how they are spelled (R63, R64). -/
def mnemonicTable : List (List Char × AsmMnemonic) :=
  [
    ("BUFWR".toList, .bufwr),
    ("SENDRAW".toList, .sendraw),
    ("SENDCHR".toList, .sendchr),
    ("SENDNUM".toList, .sendnum),
    ("LATCH".toList, .latch),
    ("ENABLE".toList, .enable),
    ("DISABLE".toList, .disable),
    ("BRIGHT".toList, .bright),
    ("TONORMAL".toList, .tonormal),
    ("TOSPECIAL".toList, .tospecial),
    ("NOP".toList, .nop),
    ("FRAME".toList, .frame),
    ("SHOWRAW".toList, .showraw),
    ("SHOWSTR".toList, .showstr),
    ("SHOWNUM".toList, .shownum)]

/-- The mnemonic a word of text spells, if it spells one (R63, R64). -/
def readMnemonic (cs : List Char) : Option AsmMnemonic := mnemonicTable.lookup cs

/-- The quotation mark around the string of `SHOWSTR` (R64). -/
def quoteChar : Char := Char.ofNat 34

/-- A blank within a line. -/
def isBlank (c : Char) : Bool := c.toNat = 32 || c.toNat = 9 || c.toNat = 13

/-- A line without its comment, which runs from `;` outside a quoted string (R63). -/
def dropComment (quoted : Bool) : List Char → List Char
  | [] => []
  | c :: cs =>
    if c = ';' ∧ quoted = false then []
    else c :: dropComment (if c = quoteChar then !quoted else quoted) cs

/-- Text without the blanks around it. -/
def trimBlanks (cs : List Char) : List Char :=
  ((cs.dropWhile isBlank).reverse.dropWhile isBlank).reverse

/-- Text cut at every `sep`. -/
def cutAt (sep : Char) : List Char → List (List Char)
  | [] => [[]]
  | c :: cs =>
    match cutAt sep cs with
    | [] => [[c]]
    | w :: ws => if c = sep then [] :: w :: ws else (c :: w) :: ws

/-- A decimal or hexadecimal digit below `base`. -/
def readDigit (base : Nat) (c : Char) : Option Nat :=
  let v :=
    if '0' ≤ c ∧ c ≤ '9' then c.toNat - 48
    else if 'a' ≤ c ∧ c ≤ 'f' then c.toNat - 87
    else if 'A' ≤ c ∧ c ≤ 'F' then c.toNat - 55
    else 16
  if v < base then some v else none

/-- The value of digits after a value `acc`. -/
def readDigits (base : Nat) (acc : Nat) : List Char → Option Nat
  | [] => some acc
  | c :: cs =>
    match readDigit base c with
    | some d => readDigits base (acc * base + d) cs
    | none => none

/-- A number, decimal or `0x` hexadecimal, where `_` only groups hexadecimal digits (R63). DESIGN CHOICE (log entry 14):
R63 does not say whether a sign belongs to a number; here it does not, so `BRIGHT -1` is refused as a malformed operand
and not as one out of range, and `+1` likewise. Leading zeros are read. -/
def readNumber (cs : List Char) : Option Nat :=
  match cs with
  | [] => none
  | '0' :: 'x' :: ds =>
    match ds.filter (· ≠ '_') with
    | [] => none
    | h :: hs => readDigits 16 0 (h :: hs)
  | c :: rest => readDigits 10 0 (c :: rest)

/-- Text cut at every comma outside a quoted string (R63: operands are separated by commas; R64: the string of
`SHOWSTR`). -/
def cutAtCommas (quoted : Bool) : List Char → List (List Char)
  | [] => [[]]
  | c :: cs =>
    match cutAtCommas (if c = quoteChar then !quoted else quoted) cs with
    | [] => [[c]]
    | w :: ws => if c = ',' ∧ quoted = false then [] :: w :: ws else (c :: w) :: ws

/-- The operands of a line as texts; none where nothing follows the mnemonic. -/
def operandTexts (cs : List Char) : List (List Char) :=
  match cs with
  | [] => []
  | c :: rest => (cutAtCommas false (c :: rest)).map trimBlanks

/-- A number operand; a text that is no number is refused. -/
def numberOperand (cs : List Char) : Except AsmError Nat :=
  match readNumber cs with
  | some v => .ok v
  | none => .error .malformedOperand

/-- The codes of a quoted string (R64); a text that is none is refused. -/
def stringOperand (cs : List Char) : Except AsmError (List Nat) :=
  match cs with
  | [] => .error .malformedOperand
  | q :: rest =>
    match rest.reverse with
    | [] => .error .malformedOperand
    | q' :: inside =>
      if q = quoteChar ∧ q' = quoteChar ∧ quoteChar ∉ inside then .ok (inside.reverse.map Char.toNat)
      else .error .malformedOperand

/-- The statement of a mnemonic with its operand texts; another count of them is refused (R63, R64, R65). DESIGN CHOICE
(log entry 14): of two faults of one line the count is named before the form of an operand (`LATCH foo` has the wrong
count), and the lengths and ranges of `AsmStmt.error?` come last; R65 does not say which. -/
def buildStmt (m : AsmMnemonic) (ops : List (List Char)) : Except AsmError AsmStmt :=
  match m, ops with
  | .bufwr, [idx, byte] => do return .bufwr (← numberOperand idx) (← numberOperand byte)
  | .sendraw, [] => .ok .sendraw
  | .sendchr, [] => .ok .sendchr
  | .sendnum, [num] => (numberOperand num).map .sendnum
  | .latch, [] => .ok .latch
  | .enable, [] => .ok .enable
  | .disable, [] => .ok .disable
  | .bright, [level] => (numberOperand level).map .bright
  | .tonormal, [] => .ok .tonormal
  | .tospecial, [] => .ok .tospecial
  | .nop, [] => .ok .nop
  | .frame, bytes => (bytes.mapM numberOperand).map .frame
  | .showraw, bytes => (bytes.mapM numberOperand).map .showraw
  | .showstr, [codes] => (stringOperand codes).map .showstr
  | .shownum, [num] => (numberOperand num).map .shownum
  | _, _ => .error .wrongOperandCount

/-- A mnemonic and the text after it as a statement. -/
def readStmt (m : AsmMnemonic) (operands : List Char) : Except AsmError AsmStmt := buildStmt m (operandTexts operands)

/-- A line without its comment and the blanks around it. -/
def lineText (line : List Char) : List Char := trimBlanks (dropComment false line)

/-- The mnemonic of such a text: what stands before its first blank. -/
def mnemonicText (text : List Char) : List Char := text.takeWhile fun c => !isBlank c

/-- What follows the mnemonic. -/
def operandText (text : List Char) : List Char := trimBlanks (text.dropWhile fun c => !isBlank c)

/-- One line of text: nothing (blank, or a comment only), one statement, or a refusal by name (R63, R65); an unknown
mnemonic is named before any fault of its operands, which have no form then. -/
def readLine (line : List Char) : Except AsmError (Option AsmStmt) :=
  match mnemonicText (lineText line) with
  | [] => .ok none
  | c :: cs =>
    match readMnemonic (c :: cs) with
    | none => .error .unknownMnemonic
    | some m => (readStmt m (operandText (lineText line))).map some

/-- One line of text assembled for a chain of `n` chips. -/
def assembleLine (n : Nat) (line : List Char) : Except AsmError AsmOut :=
  match readLine line with
  | .error e => .error e
  | .ok none => .ok { words := [], warnings := [] }
  | .ok (some a) => assemble n a

/-- Lines assembled in order, the first of them being line `start`; a refusal names its line. -/
def assembleLines (n start : Nat) : List (List Char) → Except (Nat × AsmError) AsmOut
  | [] => .ok { words := [], warnings := [] }
  | line :: lines =>
    match assembleLine n line with
    | .error e => .error (start, e)
    | .ok out =>
      match assembleLines n (start + 1) lines with
      | .error e => .error e
      | .ok rest => .ok { words := out.words ++ rest.words, warnings := out.warnings ++ rest.warnings }

/-- A program text, one statement a line (R63), assembled to the words the host delivers (R31). -/
def assembleText (n : Nat) (text : List Char) : Except (Nat × AsmError) AsmOut :=
  assembleLines n 1 (cutAt '\n' text)

end Sys2Proof.Machine
end

