-- ==== Sys2Proof/Safety.lean ====
section
/-! DEFINITION. The terms the claims use: the event lists of the spec's notation (95_test_vectors.md: `P`, `LP`, `B(b)`,
`BD(b)`), the invariant between commands (R75 and what it rests on), the checks of a legal event order (R29, R112,
R135, R136), and the event counts of R144. None of it is read by the machine. -/

namespace Sys2Proof.Safety

open Sys2Proof.Machine

/-- `P`: one clock pulse (R66). -/
def pulseEvents : List Event := [.clk .high, .clk .low]

/-- `LP`: one latch pulse (R67). -/
def latchEvents : List Event := [.le .high, .le .low]

/-- One data bit and its clock pulse. -/
def bitEvents (bit : Bool) : List Event := [.sdi (if bit then .high else .low), .clk .high, .clk .low]

/-- `B(b)`: the 24 events of an emulated transfer, bit 0 first (R39, R68). -/
def emulatedEvents (b : Byte) : List Event :=
  bitEvents b[0] ++ bitEvents b[1] ++ bitEvents b[2] ++ bitEvents b[3] ++
  bitEvents b[4] ++ bitEvents b[5] ++ bitEvents b[6] ++ bitEvents b[7]

/-- `BD(b)`: the 26 events of a delegated transfer (R69). -/
def delegatedEvents (b : Byte) : List Event := [.busBegin] ++ emulatedEvents b ++ [.busEnd]

/-- The events of `XFER(b)` (R68, R69). -/
def transferEvents (x : Xport) (b : Byte) : List Event :=
  match x with
  | .emulated => emulatedEvents b
  | .delegated => delegatedEvents b

/-- The events of `SEND_BYTE(b)` (R71). -/
def byteEvents (g : Engine) (b : Byte) : List Event :=
  if g.enstate = .pwmEnabled then
    [.oe (.ofLevel g.params.suspendLevel)] ++ transferEvents g.cfg.xport b ++ [.oe (.pwm g.bright)]
  else transferEvents g.cfg.xport b

/-- The events of a frame of these bytes in this order: the bytes, then one latch pulse (R82). -/
def frameEvents (g : Engine) (bytes : List Byte) : List Event := bytes.flatMap (byteEvents g) ++ latchEvents

/-- The bytes of `SENDRAW` in sending order: `FB[N-1]` first, `FB[0]` last (R40, R78). -/
def rawFrame (g : Engine) : List Byte := (List.range g.cfg.n).reverse.map g.fb.read

/-- The bytes of `SENDCHR` in sending order (R79). -/
def charFrame (g : Engine) : List Byte := (List.range g.cfg.n).reverse.map fun i => segmap (g.fb.read i)

/-- The bytes of `SENDNUM` in sending order: the low byte, then the high byte if there is a second chip (R41, R80). -/
def numFrame (n : Nat) (num : BitVec 16) : List Byte :=
  match n with
  | 0 => []
  | 1 => [num.extractLsb' 0 8]
  | _ + 2 => [num.extractLsb' 0 8, num.extractLsb' 8 8]

/-- `ENSTATE` after a mode switch (R92). -/
def enstateAfterSwitch (g : Engine) : EnState :=
  if g.cfg.oep ∧ g.enstate = .pwmEnabled ∧ g.params.pwmAfterSwitch = .demote then .enabled else g.enstate

/-- The event of step 7 of a switch to normal, which reads `ENSTATE` as step 1 left it (R95). -/
def restoreEvents (g : Engine) : List Event :=
  match g.enstate, g.params.pwmAfterSwitch with
  | .disabled, _ => []
  | .enabled, _ => [.oe .low]
  | .pwmEnabled, .demote => [.oe .low]
  | .pwmEnabled, .resume => [.oe (.pwm g.bright)]

/-- The events of step 6 (R94). -/
def selectorEvents (extra : Bool) : ChipMode → List Event
  | .normal => pulseEvents ++ pulseEvents
  | .special =>
    (if extra then pulseEvents else []) ++ [.le .high] ++ pulseEvents ++ [.le .low] ++ pulseEvents

/-- The events of `MODE_SWITCH(target)` (R90): none without the enable line (R98). -/
def switchEvents (target : ChipMode) (g : Engine) : List Event :=
  if g.cfg.oep then
    (if g.enstate = .pwmEnabled then [.oe (.ofLevel g.params.suspendLevel)] else []) ++
    (if g.cfg.xport = .delegated then [.busClose] else []) ++
    ([.oe .high] ++ pulseEvents ++ [.oe .low] ++ pulseEvents ++ [.oe .high] ++ pulseEvents) ++
    selectorEvents g.params.specialExtraPulse target ++
    (if target = .normal then restoreEvents g else []) ++
    (if g.cfg.xport = .delegated then [.busOpen] else [])
  else []

/-- The events of each command. -/
def commandEvents (g : Engine) : Instr → List Event
  | .bufwr _ _ => []
  | .sendraw => frameEvents g (rawFrame g)
  | .sendchr => frameEvents g (charFrame g)
  | .sendnum num => frameEvents g (numFrame g.cfg.n num)
  | .latch => latchEvents
  | .enable => if g.cfg.oep then [.oe .low] else []
  | .disable => if g.cfg.oep then [.oe .high] else []
  | .bright level => if g.cfg.oep then [.oe (.pwm level)] else []
  | .tonormal => switchEvents .normal g
  | .tospecial => switchEvents .special g
  | .nop => []
  | .reservedB => []
  | .reservedC => []
  | .reservedD => []
  | .reservedE => []
  | .reservedF => []

/-- The engine after these events, nothing else changed: the trace grows by them and the lines are driven by them
(R10, R28). `BUSOWN` is as before, which is so for events that come between commands. -/
def emitted (g : Engine) (es : List Event) : Engine :=
  { g with trace := g.trace ++ es, lines := g.lines.afterAll es }

/-- The machine after these events outside a handshake: the chain has seen each in order (R49). -/
def sent (s : State) (es : List Event) : State :=
  { s with engine := emitted s.engine es, chain := s.chain.observeAll s.engine.lines es }

/-- `E` of R144: the events of one transfer. -/
def transferCount (x : Xport) : Nat :=
  match x with
  | .emulated => 24
  | .delegated => 26

/-- `s` of R144: the suspend and restore events of one byte. -/
def suspendCount (st : EnState) : Nat := if st = .pwmEnabled then 2 else 0

/-- One event more under a condition. -/
def countIf (c : Bool) (k : Nat) : Nat := if c then k else 0

/-- The table of R144. -/
def eventCount (g : Engine) : Instr → Nat
  | .bufwr _ _ => 0
  | .sendraw => g.cfg.n * (transferCount g.cfg.xport + suspendCount g.enstate) + 2
  | .sendchr => g.cfg.n * (transferCount g.cfg.xport + suspendCount g.enstate) + 2
  | .sendnum _ => min g.cfg.n 2 * (transferCount g.cfg.xport + suspendCount g.enstate) + 2
  | .latch => 2
  | .enable => countIf g.cfg.oep 1
  | .disable => countIf g.cfg.oep 1
  | .bright _ => countIf g.cfg.oep 1
  | .tonormal =>
    countIf g.cfg.oep (13 + countIf (g.enstate = .pwmEnabled) 1 + countIf (g.enstate ≠ .disabled) 1 +
      countIf (g.cfg.xport = .delegated) 2)
  | .tospecial =>
    countIf g.cfg.oep (15 + countIf (g.enstate = .pwmEnabled) 1 + countIf (g.cfg.xport = .delegated) 2 +
      countIf g.params.specialExtraPulse 2)
  | .nop => 0
  | .reservedB => 0
  | .reservedC => 0
  | .reservedD => 0
  | .reservedE => 0
  | .reservedF => 0

/-- The bits a command reads, its opcode among them (R57, R60). -/
def readMask : Instr → Word
  | .bufwr _ _ => 0xF0FF00FF
  | .sendnum _ => 0xF000FFFF
  | .bright _ => 0xF00000FF
  | .sendraw | .sendchr | .latch | .enable | .disable | .tonormal | .tospecial | .nop
  | .reservedB | .reservedC | .reservedD | .reservedE | .reservedF => 0xF0000000

/-- The drive the enable controller last gave the line for this `ENSTATE` (R18, R75). -/
def enableDrive (g : Engine) : OeDrive :=
  match g.enstate with
  | .disabled => .high
  | .enabled => .low
  | .pwmEnabled => .pwm g.bright

/-- What holds between commands (R75, R25, R24, R88, R35, R101, R31). -/
structure IdleInv (s : State) : Prop where
  /-- R14. -/
  chainLength : 1 ≤ s.engine.cfg.n ∧ s.engine.cfg.n ≤ 254
  /-- The frame buffer is in canonical form, with no index above 253 (R35). -/
  frameBuffer : Memory.wf s.engine.fb = true
  /-- R75. -/
  clkLow : s.engine.lines.clk = .driven .low
  /-- R75. -/
  latchLow : s.engine.lines.le = .low
  /-- R25. -/
  busOwned : s.engine.busOwn = decide (s.engine.cfg.xport = .delegated)
  /-- The engine drives its data line (R24, R33). -/
  dataDriven : s.engine.cfg.xport = .emulated → s.engine.lines.sdi = .driven .low ∨ s.engine.lines.sdi = .driven .high
  /-- The released data line (R28, R33). -/
  dataReleased : s.engine.cfg.xport = .delegated → s.engine.lines.sdi = .x
  /-- The line follows `ENSTATE`, but after a switch to special it may be `H` (R75, R100), and the chain is then in special
  mode (R107). -/
  enableLine : s.engine.cfg.oep = true →
    s.engine.lines.oe = some (enableDrive s.engine) ∨
      s.engine.lines.oe = some .high ∧ s.chain.mode = .special
  /-- Without the line: `NONE`, and `DISABLED` for ever (R9, R84). -/
  noEnableLine : s.engine.cfg.oep = false → s.engine.lines.oe = none ∧ s.engine.enstate = .disabled
  /-- The lines are what the trace made of the reset levels (R28, R130). -/
  linesFromTrace : s.engine.lines = (Lines.afterReset s.engine.cfg).afterAll s.engine.trace
  /-- One chip per position (R101). -/
  chainPositions : s.chain.chips.length = s.engine.cfg.n
  /-- `cp` stops at `M` (R31). -/
  commandPointer : s.host.cp ≤ s.host.prog.length

/-- `SR[k]` (R101). -/
def srAt (c : Chain) (k : Nat) : Option ChipByte := c.chips[k]?.map Chip.sr

/-- `OUTR[k]` (R101). -/
def outrAt (c : Chain) (k : Nat) : Option ChipByte := c.chips[k]?.map Chip.outr

/-- `CFGR[k]` (R101). -/
def cfgrAt (c : Chain) (k : Nat) : Option ChipByte := c.chips[k]?.map Chip.cfgr

/-- Who drives an `SDI` or `CLK` event (R29). -/
inductive Driver where
  | engine
  | peripheral
deriving DecidableEq, Repr

/-- Who drives `SDI` and `CLK`, given `BUSOWN` and whether a bus transaction is open; under `DELEGATED` nobody outside
the two cases of R29. -/
def driverOf (x : Xport) (own inTransaction : Bool) : Option Driver :=
  match x, inTransaction, own with
  | .emulated, _, _ => some .engine
  | .delegated, true, _ => some .peripheral
  | .delegated, false, false => some .engine
  | .delegated, false, true => none

/-- Is the line driven by the PWM generator. -/
def isPwm : Option OeDrive → Bool
  | some (.pwm _) => true
  | some .low => false
  | some .high => false
  | none => false

/-- Every rising edge of the clock comes with a steady enable line (R135, R136). -/
def steadyAtEdges (l : Lines) : List Event → Bool
  | [] => true
  | e :: es => (!e.isRise || !isPwm l.oe) && steadyAtEdges (l.after e) es

/-- The bus is handed over in order (R29, R91, R137): transactions do not nest and lie within ownership; `BUS_CLOSE` and
`BUS_OPEN` come in pairs; every data and clock event has a driver; no latch or enable event falls into a transaction
(R82, D22); and the list ends with no transaction open and the bus owned exactly under `DELEGATED` (R25). -/
def busLegal (x : Xport) (own inTransaction : Bool) : List Event → Bool
  | [] => !inTransaction && decide (own = decide (x = .delegated))
  | .busBegin :: es => decide (x = .delegated) && own && !inTransaction && busLegal x own true es
  | .busEnd :: es => inTransaction && busLegal x own false es
  | .busClose :: es => decide (x = .delegated) && own && !inTransaction && busLegal x false false es
  | .busOpen :: es => decide (x = .delegated) && !own && !inTransaction && busLegal x true false es
  | .sdi _ :: es => (driverOf x own inTransaction).isSome && busLegal x own inTransaction es
  | .clk _ :: es => (driverOf x own inTransaction).isSome && busLegal x own inTransaction es
  | .le _ :: es => !inTransaction && busLegal x own inTransaction es
  | .oe _ :: es => !inTransaction && busLegal x own inTransaction es

/-- No second `LE(H)` without an `LE(L)` between, and `LE` low at the end (R112, R75). -/
def latchAlternates (le : Level) : List Event → Bool
  | [] => decide (le = .low)
  | .le .high :: es => decide (le = .low) && latchAlternates .high es
  | .le .low :: es => decide (le = .high) && latchAlternates .low es
  | .sdi _ :: es | .clk _ :: es | .oe _ :: es | .busBegin :: es | .busEnd :: es | .busClose :: es | .busOpen :: es =>
    latchAlternates le es

/-- No rising edge with `LE` high (R112). -/
def latchClear (le : Level) : List Event → Bool
  | [] => true
  | .le v :: es => latchClear v es
  | .clk .high :: es => decide (le = .low) && latchClear le es
  | .clk .low :: es | .sdi _ :: es | .oe _ :: es | .busBegin :: es | .busEnd :: es | .busClose :: es | .busOpen :: es =>
    latchClear le es

/-- The whole trace since reset is legal, from the reset levels on (R130). -/
structure TraceSafe (s : State) : Prop where
  steady : steadyAtEdges (Lines.afterReset s.engine.cfg) s.engine.trace = true
  bus : busLegal s.engine.cfg.xport (decide (s.engine.cfg.xport = .delegated)) false s.engine.trace = true
  latch : latchAlternates .low s.engine.trace = true

/-- Is it an event of the enable line. -/
def isEnableEvent : Event → Bool
  | .oe _ => true
  | .sdi _ => false
  | .clk _ => false
  | .le _ => false
  | .busBegin => false
  | .busEnd => false
  | .busClose => false
  | .busOpen => false

/-- Is it an event of the latch line. -/
def isLatchEvent : Event → Bool
  | .le _ => true
  | .sdi _ => false
  | .clk _ => false
  | .oe _ => false
  | .busBegin => false
  | .busEnd => false
  | .busClose => false
  | .busOpen => false

/-- The mnemonics of R63 and R64. -/
def mnemonics : List (List Char) :=
  ["BUFWR", "SENDRAW", "SENDCHR", "SENDNUM", "LATCH", "ENABLE", "DISABLE", "BRIGHT", "TONORMAL", "TOSPECIAL", "NOP",
    "FRAME", "SHOWRAW", "SHOWSTR", "SHOWNUM"].map String.toList

/-- How many operands each form of R63 and R64 has; none where it takes a list of bytes. -/
def operandCount : AsmMnemonic → Option Nat
  | .bufwr => some 2
  | .sendnum | .bright | .showstr | .shownum => some 1
  | .sendraw | .sendchr | .latch | .enable | .disable | .tonormal | .tospecial | .nop => some 0
  | .frame | .showraw => none

end Sys2Proof.Safety
end

