-- ==== Sys2Proof/Certificates/Slice0/Obligations.lean ====
section
/-! DEFINITION. The statements for the provers. Each docstring names the rule of spec/ it formalises. -/

open Sys2Proof Sys2Proof.Machine Sys2Proof.Safety

/-! ### Reset -/

/-- R15. The chain length after reset, below, above and within the bounds. -/
def Obligations.ChainLengthIsClampedAtReset : Prop :=
  ∀ (i : ConfigInputs) (p : Params),
    (i.chainLengthReq < 1 → (Engine.afterReset i p).cfg.n = 1) ∧
    (254 < i.chainLengthReq → (Engine.afterReset i p).cfg.n = 254) ∧
    (1 ≤ i.chainLengthReq → i.chainLengthReq ≤ 254 → ((Engine.afterReset i p).cfg.n : Int) = i.chainLengthReq)

/-- R33. The whole reset table, for every configuration and every parameter. -/
def Obligations.PowerOnStateIsTheResetTable : Prop :=
  ∀ (i : ConfigInputs) (p : Params),
    let s := State.powerOn i p
    (s.engine.cfg.n : Int) = min (max i.chainLengthReq 1) 254 ∧
    s.engine.cfg.xport = i.xport ∧
    s.engine.cfg.oep = i.oep ∧
    s.engine.enstate = .disabled ∧
    s.engine.bright = 0x00 ∧
    (∀ k, k ≤ 253 → s.engine.fb.read k = 0x00) ∧
    s.engine.lines.sdi = (if i.xport = .emulated then .driven .low else .x) ∧
    s.engine.lines.clk = .driven .low ∧
    s.engine.lines.le = .low ∧
    s.engine.lines.oe = (if i.oep then some .high else none) ∧
    s.engine.busOwn = (if i.xport = .delegated then true else false) ∧
    s.engine.trace = [] ∧
    s.host.cp = 0

/-- While `RST` is asserted no word is taken and the engine is not ready (R131). That a step then runs the reset sequence
of R130, keeping the host's program with the pointer at its start, is the model's reading (log entry 9). -/
def Obligations.NoCommandIsTakenInReset : Prop :=
  ∀ s : State, s.host.rst = true →
    s.cmdReady = false ∧ s.fetch = none ∧
    ∃ t, step s = .next t ∧ t.engine = Engine.afterReset s.host.inputs s.engine.params ∧
      t.host = { s.host with cp := 0 }

/-- R132, which the spec derives from R130 and R109. A reset (a step under `RST`, log entry
9) gives the same engine from any two states with the same inputs (and the same implementation
parameters), and leaves the chain, its mode among it, as it was. That the chain's positions are those of the sampled
chain length is the hypothesis; where a reset samples another length, log entry 7 stands. -/
def Obligations.RepeatedResetKeepsOnlyTheChain : Prop :=
  ∀ s s' t t' : State, s.host.rst = true → s'.host.rst = true → s.host.inputs = s'.host.inputs →
    s.engine.params = s'.engine.params →
    (s.chain.chips.length : Int) = min (max s.host.inputs.chainLengthReq 1) 254 →
    step s = .next t → step s' = .next t' →
    t.engine = t'.engine ∧ t.chain = s.chain

/-- R109 and the initial mode of R107. The chain at power-on: every bit unknown, the mode `chipPowerOnMode`, one chip per position. -/
def Obligations.ChainIsUnknownAtPowerOn : Prop :=
  ∀ (i : ConfigInputs) (p : Params),
    let s := State.powerOn i p
    s.chain.mode = p.chipPowerOnMode ∧ s.chain.chips.length = s.engine.cfg.n ∧
    ∀ k, k < s.engine.cfg.n →
      srAt s.chain k = some .unknown ∧ outrAt s.chain k = some .unknown ∧ cfgrAt s.chain k = some .unknown

/-! ### Invariants -/

/-- The invariant between commands holds at power-on, for every configuration. That a program is empty there is the
model's choice (log entry 3). -/
def Obligations.InvariantHoldsAtPowerOn : Prop :=
  ∀ (i : ConfigInputs) (p : Params), IdleInv (State.powerOn i p)

/-- Every step keeps the invariant between commands (R75 and what it rests on), a reset step among them. The model's own
part of it: a step under `RST` runs the reset sequence (log entry 9); one chip per position survives a reset that samples
another length by `Chain.resize` (log entry 7); a step with no word keeps the state (log entry 3); the canonical form of
the frame buffer is the model's representation (log entry 13). -/
def Obligations.StepKeepsInvariant : Prop :=
  ∀ s t : State, IdleInv s → step s = .next t → IdleInv t

/-- The whole trace is legal at power-on. -/
def Obligations.TraceSafetyHoldsAtPowerOn : Prop :=
  ∀ (i : ConfigInputs) (p : Params), TraceSafe (State.powerOn i p)

/-- Every step keeps the whole trace legal: a steady enable line at every rising edge, the bus handed over in order,
latch pulses that alternate. A step under `RST` empties the trace (R130, log entry 9); one with no word keeps it (log
entry 3). -/
def Obligations.StepKeepsTheTraceLegal : Prop :=
  ∀ s t : State, IdleInv s → TraceSafe s → step s = .next t → TraceSafe t

/-! ### Encoding -/

/-- R55, R63. Decode and encode agree on every well-formed command, as a word and as the bytes of a host link. -/
def Obligations.EncodeThenDecodeGivesTheCommandBack : Prop :=
  ∀ i : Instr, i.wellFormed = true →
    decodeWord (encode i) = i ∧ ∀ rest : List Byte, decode (bytesOfWord (encode i) ++ rest) = .ok (i, rest)

/-- R57, R58. The opcode map over all 16 opcodes, with the operands each command reads. -/
def Obligations.DecoderFollowsTheOpcodeMap : Prop :=
  ∀ w : Word,
    (w &&& 0xF0000000 = 0x00000000 → decodeWord w = .nop) ∧
    (w &&& 0xF0000000 = 0x10000000 → decodeWord w = .bufwr (w.extractLsb' 16 8) (w.extractLsb' 0 8)) ∧
    (w &&& 0xF0000000 = 0x20000000 → decodeWord w = .sendraw) ∧
    (w &&& 0xF0000000 = 0x30000000 → decodeWord w = .sendchr) ∧
    (w &&& 0xF0000000 = 0x40000000 → decodeWord w = .sendnum (w.extractLsb' 0 16)) ∧
    (w &&& 0xF0000000 = 0x50000000 → decodeWord w = .latch) ∧
    (w &&& 0xF0000000 = 0x60000000 → decodeWord w = .enable) ∧
    (w &&& 0xF0000000 = 0x70000000 → decodeWord w = .disable) ∧
    (w &&& 0xF0000000 = 0x80000000 → decodeWord w = .bright (w.extractLsb' 0 8)) ∧
    (w &&& 0xF0000000 = 0x90000000 → decodeWord w = .tonormal) ∧
    (w &&& 0xF0000000 = 0xA0000000 → decodeWord w = .tospecial) ∧
    (w &&& 0xF0000000 = 0xB0000000 → decodeWord w = .reservedB) ∧
    (w &&& 0xF0000000 = 0xC0000000 → decodeWord w = .reservedC) ∧
    (w &&& 0xF0000000 = 0xD0000000 → decodeWord w = .reservedD) ∧
    (w &&& 0xF0000000 = 0xE0000000 → decodeWord w = .reservedE) ∧
    (w &&& 0xF0000000 = 0xF0000000 → decodeWord w = .reservedF)

/-- R60. Two words that differ only in ignored bits are the same command, and the encoder writes zeros there. -/
def Obligations.IgnoredFieldsDoNotMatter : Prop :=
  (∀ w w' : Word, w &&& readMask (decodeWord w) = w' &&& readMask (decodeWord w) → decodeWord w' = decodeWord w) ∧
  (∀ w : Word, encode (decodeWord w) = w &&& readMask (decodeWord w))

/-- Words written out from the encoding column of the opcode table and the decoder vectors. -/
def Obligations.SpecWordsDecodeToTheirCommands : Prop :=
  decodeWord 0x10010006 = .bufwr 1 0x06 ∧ decodeWord 0x80000080 = .bright 128 ∧
  decodeWord 0x40001234 = .sendnum 0x1234 ∧ decodeWord 0x60000000 = .enable ∧
  decodeWord 0xA0000000 = .tospecial ∧ decodeWord 0x9ABCDEF0 = .tonormal ∧ decodeWord 0x20FFFFFF = .sendraw ∧
  decodeWord 0x00000000 = .nop ∧ decodeWord 0xFFFFFFFF = .reservedF

/-- R42. A byte-wide host link carries bits 7:0 first and bits 31:24 last; fewer than four bytes are no word, which is
the model's name for it (log entry 17). -/
def Obligations.HostLinkSendsTheLowByteFirst : Prop :=
  (∀ (w : Word) (rest : List Byte),
    decode (w.extractLsb' 0 8 :: w.extractLsb' 8 8 :: w.extractLsb' 16 8 :: w.extractLsb' 24 8 :: rest) =
      .ok (decodeWord w, rest)) ∧
  (∀ bytes : List Byte, bytes.length < 4 → decode bytes = .error .truncated)

/-! ### The step -/

/-- A step runs the decoded command: with `RST` released and a word at the host's pointer, step is exec of the command
it decodes to, and then the pointer moves on by one. -/
def Obligations.StepRunsTheDecodedCommand : Prop :=
  ∀ (s t : State) (w : Word) (i : Instr), s.host.rst = false → s.host.prog[s.host.cp]? = some w →
    decodeWord w = i → i.wellFormed = true → exec i s = .next t →
    step s = .next { t with host := { t.host with cp := t.host.cp + 1 } }

/-- From R31: the host's pointer starts at 0; each taken word moves it by exactly one, whatever the command; at `M` it
stops. That a step with no word offered keeps the whole state is the model's (log entry 3), after R128. -/
def Obligations.CommandPointerMovesByOne : Prop :=
  (∀ (i : ConfigInputs) (p : Params), (State.powerOn i p).host.cp = 0) ∧
  (∀ s t : State, s.host.rst = false → step s = .next t →
    (s.host.cp < s.host.prog.length → t.host = { s.host with cp := s.host.cp + 1 }) ∧
    (s.host.prog.length ≤ s.host.cp → t = s))

/-- R113: every command word decodes and every command completes, in any state. -/
def Obligations.EveryCommandCompletes : Prop :=
  (∀ (i : Instr) (s : State), ∃ t, exec i s = .next t) ∧
  (∀ (w : Word) (s : State), ∃ t, exec (decodeWord w) s = .next t)

/-- R27. The trace is empty after reset, each event is appended at its end, and no command removes any. -/
def Obligations.TraceOnlyGrows : Prop :=
  (∀ (i : ConfigInputs) (p : Params), (Engine.afterReset i p).trace = []) ∧
  (∀ (e : Event) (g : Engine), (g.emit e).trace = g.trace ++ [e]) ∧
  (∀ (i : Instr) (s t : State), exec i s = .next t → s.engine.trace <+: t.engine.trace)

/-- From R14: `CFG` is read-only after reset, as are the implementation parameters (R6). -/
def Obligations.ConfigurationIsReadOnly : Prop :=
  ∀ (i : Instr) (s t : State), exec i s = .next t →
    t.engine.cfg = s.engine.cfg ∧ t.engine.params = s.engine.params ∧ t.host = s.host

/-! ### Frame buffer -/

/-- R77, R36. `BUFWR`: opcode `0x1`; it writes one entry for `idx` up to 253 and nothing for 254 and 255; no event, no line, no other
register; every other entry reads as before. -/
def Obligations.BufwrWritesOneEntry : Prop :=
  (∀ w : Word, w.extractLsb' 28 4 = 0x1 → decodeWord w = .bufwr (w.extractLsb' 16 8) (w.extractLsb' 0 8)) ∧
  ∀ (idx : BitVec 8) (byte : Byte) (s : State),
    (idx.toNat ≤ 253 → ∃ m : Memory,
      exec (.bufwr idx byte) s = .next { s with engine := { s.engine with fb := m } } ∧
      m.read idx.toNat = byte ∧ ∀ a, a ≠ idx.toNat → m.read a = s.engine.fb.read a) ∧
    (254 ≤ idx.toNat → exec (.bufwr idx byte) s = .next s)

/-- "`BUFWR` is idempotent" (R46, which the spec derives from R28 and R102). Writing the same entry again changes nothing more. -/
def Obligations.BufwrIsIdempotent : Prop :=
  ∀ (idx : BitVec 8) (byte : Byte) (s t : State),
    exec (.bufwr idx byte) s = .next t → exec (.bufwr idx byte) t = .next t

/-- Two frame buffers in canonical form that read alike are the same data. The form is the model's (log entry 13). -/
def Obligations.CanonicalBuffersThatReadAlikeAreEqual : Prop :=
  ∀ m m' : Memory, m.wf = true → m'.wf = true → (∀ a, m.read a = m'.read a) → m = m'

/-- From R35: no command but `BUFWR` changes the frame buffer. -/
def Obligations.OnlyBufwrWritesTheFrameBuffer : Prop :=
  ∀ (i : Instr) (s t : State), (∀ idx byte, i ≠ .bufwr idx byte) → exec i s = .next t →
    t.engine.fb = s.engine.fb

/-- From R35: entries at positions the chain does not have are never read: another buffer that agrees on `0..N-1` gives the
same events, lines and chain. -/
def Obligations.EntriesBeyondTheChainAreNeverRead : Prop :=
  ∀ (i : Instr) (s t : State) (m : Memory), (∀ k, k < s.engine.cfg.n → m.read k = s.engine.fb.read k) →
    (∀ idx byte, i ≠ .bufwr idx byte) → exec i s = .next t →
    exec i { s with engine := { s.engine with fb := m } } =
      .next { t with engine := { t.engine with fb := m } }

/-- R38. `SEGMAP`, with both ends of the printable range. -/
def Obligations.SegmapFollowsTheRule : Prop :=
  (∀ (c : Byte) (h : 32 ≤ c.toNat ∧ c.toNat ≤ 127), segmap c = Config.seg ⟨c.toNat - 32, by omega⟩) ∧
  (∀ c : Byte, c.toNat < 32 ∨ 127 < c.toNat → segmap c = 0x00) ∧
  segmap 32 = Config.seg 0 ∧ segmap 127 = Config.seg 95

/-! ### Byte transport -/

/-- R67. One latch pulse: two events, `LE` low afterwards, nothing else touched. -/
def Obligations.LatchPulseRaisesAndLowersTheLatch : Prop :=
  ∀ g : Engine, g.latchPulse =
    { g with trace := g.trace ++ [.le .high, .le .low], lines := { g.lines with le := .low } }

/-- R68. The emulated transfer: the 24 events of the byte, `SDI` at the level of bit 7 and `CLK` low afterwards. -/
def Obligations.EmulatedTransferShiftsEightBits : Prop :=
  ∀ (b : Byte) (g : Engine), g.xferEmulated b =
    { g with
      trace := g.trace ++ emulatedEvents b
      lines := { g.lines with sdi := .driven (if b[7] then .high else .low), clk := .driven .low } }

/-- R69. The delegated transfer: the same bits within one bus transaction, `SDI` released afterwards. -/
def Obligations.DelegatedTransferIsOneTransaction : Prop :=
  ∀ (b : Byte) (g : Engine), g.xferDelegated b =
    { g with
      trace := g.trace ++ ([.busBegin] ++ emulatedEvents b ++ [.busEnd])
      lines := { g.lines with sdi := .x, clk := .driven .low } }

/-- R71. One byte with PWM suspension: the suspend event before the transfer and the restore event after it, exactly
while `ENSTATE = PWM_ENABLED`; no register changes. -/
def Obligations.SendByteSuspendsAndRestoresPwm : Prop :=
  ∀ (b : Byte) (g : Engine),
    (g.enstate = .pwmEnabled → g.sendByte b =
      emitted g ([.oe (.ofLevel g.params.suspendLevel)] ++ transferEvents g.cfg.xport b ++ [.oe (.pwm g.bright)])) ∧
    (g.enstate ≠ .pwmEnabled → g.sendByte b = emitted g (transferEvents g.cfg.xport b))

/-- R70, which the spec derives from R68 and R69. The two transports are equal at the chain: from any lines and any chain both leave the same chain, both have 8
rising edges, and the data and edge events are the bits in order, each before its edge. -/
def Obligations.TransportsAreEqualAtTheChain : Prop :=
  ∀ (b : Byte) (c : Chain) (l : Lines),
    c.observeAll l (emulatedEvents b) = c.observeAll l (delegatedEvents b) ∧
    (∀ x : Xport, (transferEvents x b).countP Event.isRise = 8 ∧
      (transferEvents x b).filter (fun e => e ≠ .busBegin ∧ e ≠ .busEnd ∧ e ≠ .clk .low) =
        [.sdi (levelOfBit b[0]), .clk .high, .sdi (levelOfBit b[1]), .clk .high,
         .sdi (levelOfBit b[2]), .clk .high, .sdi (levelOfBit b[3]), .clk .high,
         .sdi (levelOfBit b[4]), .clk .high, .sdi (levelOfBit b[5]), .clk .high,
         .sdi (levelOfBit b[6]), .clk .high, .sdi (levelOfBit b[7]), .clk .high])

/-! ### Data shift and latch -/

/-- R78. `SENDRAW`: opcode `0x2`; it sends `FB[N-1]` down to `FB[0]` unmodified and then latches; no register changes. -/
def Obligations.SendrawSendsTheFrameLastChipFirst : Prop :=
  (∀ w : Word, w.extractLsb' 28 4 = 0x2 → decodeWord w = .sendraw) ∧
  ∀ s : State, exec .sendraw s =
    .next (sent s (((List.range s.engine.cfg.n).reverse.map s.engine.fb.read).flatMap (byteEvents s.engine) ++
      [.le .high, .le .low]))

/-- R79. `SENDCHR`: opcode `0x3`; it sends the same frame through the segment ROM and then latches; the buffer keeps the codes. -/
def Obligations.SendchrSendsTheMappedFrame : Prop :=
  (∀ w : Word, w.extractLsb' 28 4 = 0x3 → decodeWord w = .sendchr) ∧
  ∀ s : State, exec .sendchr s =
    .next (sent s (((List.range s.engine.cfg.n).reverse.map fun i => segmap (s.engine.fb.read i)).flatMap
      (byteEvents s.engine) ++ [.le .high, .le .low]))

/-- R80. `SENDNUM`: opcode `0x4`; it sends the low byte, then the high byte if the chain has two chips or more, and then latches; the
frame buffer is neither read nor written. -/
def Obligations.SendnumSendsAtMostTwoBytes : Prop :=
  (∀ w : Word, w.extractLsb' 28 4 = 0x4 → decodeWord w = .sendnum (w.extractLsb' 0 16)) ∧
  ∀ (num : BitVec 16) (s : State),
    (s.engine.cfg.n = 1 → exec (.sendnum num) s =
      .next (sent s (byteEvents s.engine (num.extractLsb' 0 8) ++ [.le .high, .le .low]))) ∧
    (2 ≤ s.engine.cfg.n → exec (.sendnum num) s =
      .next (sent s (byteEvents s.engine (num.extractLsb' 0 8) ++ byteEvents s.engine (num.extractLsb' 8 8) ++
        [.le .high, .le .low])))

/-- R81. `LATCH`: opcode `0x5`, one latch pulse and nothing else; from the low latch line that stands between commands
the chain sees exactly one pulse. -/
def Obligations.LatchEmitsOneLatchPulse : Prop :=
  (∀ w : Word, w.extractLsb' 28 4 = 0x5 → decodeWord w = .latch) ∧
  (∀ s : State, exec .latch s = .next
    { s with
      engine :=
        { s.engine with
          trace := s.engine.trace ++ [.le .high, .le .low]
          lines := { s.engine.lines with le := .low } }
      chain := s.chain.observeAll s.engine.lines [.le .high, .le .low] }) ∧
  (∀ (c : Chain) (l : Lines), l.le = .low → c.observeAll l [.le .high, .le .low] = c.latched)

/-- R82, which the spec derives from R78 to R80. Every frame command makes its number of byte transfers, then exactly one latch pulse, and has no latch event
within a transfer. -/
def Obligations.OneLatchPulseEndsEveryFrame : Prop :=
  ∀ (s t : State) (i : Instr) (count : Nat),
    ((i = .sendraw ∨ i = .sendchr) ∧ count = s.engine.cfg.n ∨
      (∃ num, i = .sendnum num) ∧ count = min s.engine.cfg.n 2) →
    exec i s = .next t →
    ∃ bytes : List Byte, bytes.length = count ∧
      t.engine.trace = s.engine.trace ++ bytes.flatMap (byteEvents s.engine) ++ [.le .high, .le .low] ∧
      (bytes.flatMap (byteEvents s.engine)).all (fun e => !isLatchEvent e) = true

/-- The lines after a frame: the clock and the latch low, the data line at bit 7 of the byte sent last or released, and
the enable line as before the frame or at the remembered PWM level (R68, R69, R71). -/
def Obligations.LinesRestAfterAFrame : Prop :=
  ∀ (s t : State) (i : Instr) (last : Byte), IdleInv s →
    (i = .sendraw ∧ last = s.engine.fb.read 0 ∨
      i = .sendchr ∧ last = segmap (s.engine.fb.read 0) ∨
      (∃ num : BitVec 16, i = .sendnum num ∧
        last = if s.engine.cfg.n = 1 then num.extractLsb' 0 8 else num.extractLsb' 8 8)) →
    exec i s = .next t →
    t.engine.lines.clk = .driven .low ∧ t.engine.lines.le = .low ∧
    (s.engine.cfg.xport = .emulated → t.engine.lines.sdi = .driven (levelOfBit last[7])) ∧
    (s.engine.cfg.xport = .delegated → t.engine.lines.sdi = .x) ∧
    (s.engine.enstate = .pwmEnabled → t.engine.lines.oe = some (.pwm s.engine.bright)) ∧
    (s.engine.enstate ≠ .pwmEnabled → t.engine.lines.oe = s.engine.lines.oe)

/-! ### Output enable and brightness -/

/-- R85. `ENABLE`: opcode `0x6`; with the line, `OE` low and `ENABLED`, `BRIGHT` kept; without it, nothing. -/
def Obligations.EnableDrivesTheLineLow : Prop :=
  (∀ w : Word, w.extractLsb' 28 4 = 0x6 → decodeWord w = .enable) ∧
  ∀ s : State,
    (s.engine.cfg.oep = true → exec .enable s = .next
      { s with engine :=
        { s.engine with
          trace := s.engine.trace ++ [.oe .low]
          lines := { s.engine.lines with oe := some .low }
          enstate := .enabled } }) ∧
    (s.engine.cfg.oep = false → exec .enable s = .next s)

/-- R86. `DISABLE`: opcode `0x7`; with the line, `OE` high and `DISABLED`, `BRIGHT` kept; without it, nothing. -/
def Obligations.DisableDrivesTheLineHigh : Prop :=
  (∀ w : Word, w.extractLsb' 28 4 = 0x7 → decodeWord w = .disable) ∧
  ∀ s : State,
    (s.engine.cfg.oep = true → exec .disable s = .next
      { s with engine :=
        { s.engine with
          trace := s.engine.trace ++ [.oe .high]
          lines := { s.engine.lines with oe := some .high }
          enstate := .disabled } }) ∧
    (s.engine.cfg.oep = false → exec .disable s = .next s)

/-- R87. `BRIGHT level`: opcode `0x8`, the level in bits 7:0; with the line, the PWM waveform of every level, 0 and 255
among them, and the level remembered; without it, nothing. -/
def Obligations.BrightStartsPwmAtTheLevel : Prop :=
  (∀ w : Word, w.extractLsb' 28 4 = 0x8 → decodeWord w = .bright (w.extractLsb' 0 8)) ∧
  ∀ (d : Byte) (s : State),
    (s.engine.cfg.oep = true → exec (.bright d) s = .next
      { s with engine :=
        { s.engine with
          trace := s.engine.trace ++ [.oe (.pwm d)]
          lines := { s.engine.lines with oe := some (.pwm d) }
          bright := d
          enstate := .pwmEnabled } }) ∧
    (s.engine.cfg.oep = false → exec (.bright d) s = .next s)

/-- R88, R98. Without the enable line the five commands that need it change nothing and emit nothing, under either
transport. -/
def Obligations.FiveCommandsAreNoOpsWithoutTheEnableLine : Prop :=
  ∀ (s : State) (d : Byte), s.engine.cfg.oep = false →
    exec .enable s = .next s ∧ exec .disable s = .next s ∧ exec (.bright d) s = .next s ∧
    exec .tonormal s = .next s ∧ exec .tospecial s = .next s

/-- R84, which the spec derives from R85 to R88 and R33. Every transition of `ENSTATE` and `BRIGHT`, over all commands and all states. -/
def Obligations.EnableStateMachineHasOnlyItsTransitions : Prop :=
  ∀ (i : Instr) (s t : State), exec i s = .next t →
    (s.engine.cfg.oep = false → t.engine.enstate = s.engine.enstate ∧ t.engine.bright = s.engine.bright) ∧
    (s.engine.cfg.oep = true →
      (i = .enable → t.engine.enstate = .enabled ∧ t.engine.bright = s.engine.bright ∧
        t.engine.trace = s.engine.trace ++ [.oe .low]) ∧
      (i = .disable → t.engine.enstate = .disabled ∧ t.engine.bright = s.engine.bright ∧
        t.engine.trace = s.engine.trace ++ [.oe .high]) ∧
      (∀ d, i = .bright d → t.engine.enstate = .pwmEnabled ∧ t.engine.bright = d ∧
        t.engine.trace = s.engine.trace ++ [.oe (.pwm d)]) ∧
      (i = .tonormal ∨ i = .tospecial → t.engine.bright = s.engine.bright ∧
        (s.engine.enstate = .pwmEnabled → s.engine.params.pwmAfterSwitch = .demote → t.engine.enstate = .enabled) ∧
        (s.engine.enstate ≠ .pwmEnabled ∨ s.engine.params.pwmAfterSwitch = .resume →
          t.engine.enstate = s.engine.enstate)) ∧
      (i ≠ .enable → i ≠ .disable → (∀ d, i ≠ .bright d) → i ≠ .tonormal → i ≠ .tospecial →
        t.engine.enstate = s.engine.enstate ∧ t.engine.bright = s.engine.bright))

/-- From R20: outside `PWM_ENABLED` no command reads `BRIGHT`: with another value there, everything but `BRIGHT` comes out the
same. -/
def Obligations.BrightIsUnobservableOutsidePwm : Prop :=
  ∀ (i : Instr) (s t : State) (d : Byte), s.engine.enstate ≠ .pwmEnabled → exec i s = .next t →
    ∃ t' : State, exec i { s with engine := { s.engine with bright := d } } = .next t' ∧
      t'.engine = { t.engine with bright := t'.engine.bright } ∧ t'.chain = t.chain ∧ t'.host = t.host

/-! ### Mode switch -/

/-- R96. `TONORMAL`: opcode `0x9`; with the line, the handshake of R90 to normal, event by event, `ENSTATE` only by the
demotion of step 1; without it, nothing. -/
def Obligations.TonormalRunsTheNormalHandshake : Prop :=
  (∀ w : Word, w.extractLsb' 28 4 = 0x9 → decodeWord w = .tonormal) ∧
  (∀ s : State, s.engine.cfg.oep = false → exec .tonormal s = .next s) ∧
  ∀ s : State, s.engine.cfg.oep = true → exec .tonormal s = .next
    { s with
      engine :=
        { emitted s.engine
            ((if s.engine.enstate = .pwmEnabled then [.oe (.ofLevel s.engine.params.suspendLevel)] else []) ++
             (if s.engine.cfg.xport = .delegated then [.busClose] else []) ++
             [.oe .high, .clk .high, .clk .low, .oe .low, .clk .high, .clk .low, .oe .high, .clk .high, .clk .low,
              .clk .high, .clk .low, .clk .high, .clk .low] ++
             restoreEvents s.engine ++
             (if s.engine.cfg.xport = .delegated then [.busOpen] else [])) with
          enstate := enstateAfterSwitch s.engine
          busOwn := s.engine.busOwn || decide (s.engine.cfg.xport = .delegated) }
      chain := s.chain.afterHandshake .normal }

/-- R97. `TOSPECIAL`: opcode `0xA`; with the line, the handshake of R90 to special, event by event, with the extra pulse
under its parameter; nothing is restored; without the line, nothing. -/
def Obligations.TospecialRunsTheSpecialHandshake : Prop :=
  (∀ w : Word, w.extractLsb' 28 4 = 0xA → decodeWord w = .tospecial) ∧
  (∀ s : State, s.engine.cfg.oep = false → exec .tospecial s = .next s) ∧
  ∀ s : State, s.engine.cfg.oep = true → exec .tospecial s = .next
    { s with
      engine :=
        { emitted s.engine
            ((if s.engine.enstate = .pwmEnabled then [.oe (.ofLevel s.engine.params.suspendLevel)] else []) ++
             (if s.engine.cfg.xport = .delegated then [.busClose] else []) ++
             [.oe .high, .clk .high, .clk .low, .oe .low, .clk .high, .clk .low, .oe .high, .clk .high, .clk .low] ++
             (if s.engine.params.specialExtraPulse then [.clk .high, .clk .low] else []) ++
             [.le .high, .clk .high, .clk .low, .le .low, .clk .high, .clk .low] ++
             (if s.engine.cfg.xport = .delegated then [.busOpen] else [])) with
          enstate := enstateAfterSwitch s.engine
          busOwn := s.engine.busOwn || decide (s.engine.cfg.xport = .delegated) }
      chain := s.chain.afterHandshake .special }

/-- R100, which the spec derives from R92 to R95. The table of registers and lines after a switch, under `DEMOTE` and under `RESUME`. -/
def Obligations.SwitchTableOfRegistersAndLines : Prop :=
  ∀ s t : State, s.engine.cfg.oep = true →
    (exec .tonormal s = .next t →
      t.engine.lines.le = s.engine.lines.le ∧ t.engine.lines.clk = .driven .low ∧
      (s.engine.enstate = .disabled → t.engine.enstate = .disabled ∧ t.engine.lines.oe = some .high) ∧
      (s.engine.enstate = .enabled → t.engine.enstate = .enabled ∧ t.engine.lines.oe = some .low) ∧
      (s.engine.enstate = .pwmEnabled → s.engine.params.pwmAfterSwitch = .demote →
        t.engine.enstate = .enabled ∧ t.engine.lines.oe = some .low) ∧
      (s.engine.enstate = .pwmEnabled → s.engine.params.pwmAfterSwitch = .resume →
        t.engine.enstate = .pwmEnabled ∧ t.engine.lines.oe = some (.pwm s.engine.bright))) ∧
    (exec .tospecial s = .next t →
      t.engine.lines.le = .low ∧ t.engine.lines.clk = .driven .low ∧ t.engine.lines.oe = some .high ∧
      (s.engine.enstate = .pwmEnabled → s.engine.params.pwmAfterSwitch = .demote → t.engine.enstate = .enabled) ∧
      (s.engine.enstate ≠ .pwmEnabled ∨ s.engine.params.pwmAfterSwitch = .resume →
        t.engine.enstate = s.engine.enstate))

/-! ### Reserved opcodes -/

/-- R59. A word with a reserved opcode, the all-zero word among them, changes nothing; the host's pointer moves on to the
next word. -/
def Obligations.ReservedOpcodesDoNothing : Prop :=
  (∀ s : State, exec .nop s = .next s ∧ exec .reservedB s = .next s ∧ exec .reservedC s = .next s ∧
    exec .reservedD s = .next s ∧ exec .reservedE s = .next s ∧ exec .reservedF s = .next s) ∧
  (∀ (s : State) (w : Word), s.host.rst = false → s.host.prog[s.host.cp]? = some w →
    (w.extractLsb' 28 4 = 0x0 ∨ w.extractLsb' 28 4 = 0xB ∨ w.extractLsb' 28 4 = 0xC ∨
      w.extractLsb' 28 4 = 0xD ∨ w.extractLsb' 28 4 = 0xE ∨ w.extractLsb' 28 4 = 0xF) →
    step s = .next { s with host := { s.host with cp := s.host.cp + 1 } })

/-! ### The chip chain -/

/-- R103, which the spec derives from R102 and R70. Bytes sent in order enter the chain from the engine's end: after `m` bytes position `k < m` holds the byte sent
`k` before the last, position `k ≥ m` what position `k - m` held; the output and configuration registers do not change,
and PWM suspension and bus markers make no difference. -/
def Obligations.BytesShiftThroughTheChain : Prop :=
  ∀ (g : Engine) (bytes : List Byte) (l : Lines) (c : Chain), l.le = .low →
    ∀ k, k < c.chips.length →
      (k < bytes.length → srAt (c.observeAll l (bytes.flatMap (byteEvents g))) k =
        (bytes[bytes.length - 1 - k]?).map ChipByte.ofByte) ∧
      (bytes.length ≤ k → srAt (c.observeAll l (bytes.flatMap (byteEvents g))) k = srAt c (k - bytes.length)) ∧
      outrAt (c.observeAll l (bytes.flatMap (byteEvents g))) k = outrAt c k ∧
      cfgrAt (c.observeAll l (bytes.flatMap (byteEvents g))) k = cfgrAt c k

/-- R104, which the spec derives from R103 and R78 to R80. What the shift registers hold after each frame command. -/
def Obligations.FramesReachTheirChips : Prop :=
  ∀ s : State, s.engine.lines.le = .low → s.chain.chips.length = s.engine.cfg.n →
    (∃ t, exec .sendraw s = .next t ∧
      ∀ k, k < s.engine.cfg.n → srAt t.chain k = some (.ofByte (s.engine.fb.read k))) ∧
    (∃ t, exec .sendchr s = .next t ∧
      ∀ k, k < s.engine.cfg.n → srAt t.chain k = some (.ofByte (segmap (s.engine.fb.read k)))) ∧
    (∀ num : BitVec 16, ∃ t, exec (.sendnum num) s = .next t ∧
      (s.engine.cfg.n = 1 → srAt t.chain 0 = some (.ofByte (num.extractLsb' 0 8))) ∧
      (2 ≤ s.engine.cfg.n → srAt t.chain 0 = some (.ofByte (num.extractLsb' 8 8)) ∧
        srAt t.chain 1 = some (.ofByte (num.extractLsb' 0 8)) ∧
        ∀ k, 2 ≤ k → k < s.engine.cfg.n → srAt t.chain k = srAt s.chain (k - 2)))

/-- R105, which the spec derives from R102 to R104, and R106. A latch pulse copies every shift register to the output register in normal mode and to the configuration
register in special mode, the rest unchanged; so after `SENDRAW` in normal mode every chip drives the byte meant for its
position. -/
def Obligations.LatchCopiesByMode : Prop :=
  (∀ (c : Chain) (l : Lines) (k : Nat), l.le = .low →
    let c' := c.observeAll l [.le .high, .le .low]
    srAt c' k = srAt c k ∧ c'.mode = c.mode ∧
    (c.mode = .normal → outrAt c' k = srAt c k ∧ cfgrAt c' k = cfgrAt c k) ∧
    (c.mode = .special → cfgrAt c' k = srAt c k ∧ outrAt c' k = outrAt c k)) ∧
  (∀ s t : State, s.engine.lines.le = .low → s.chain.chips.length = s.engine.cfg.n → s.chain.mode = .normal →
    exec .sendraw s = .next t →
    ∀ k, k < s.engine.cfg.n → outrAt t.chain k = some (.ofByte (s.engine.fb.read k)))

/-- R107. The effect of a whole handshake on the chain. -/
def Obligations.HandshakeLosesTheShiftRegisters : Prop :=
  (∀ (i : ConfigInputs) (p : Params), (State.powerOn i p).chain.mode = p.chipPowerOnMode) ∧
  ∀ s : State, s.engine.cfg.oep = true →
    (∃ t, exec .tonormal s = .next t ∧ t.chain.mode = .normal ∧
      ∀ k, k < s.chain.chips.length →
        srAt t.chain k = some .unknown ∧ outrAt t.chain k = outrAt s.chain k ∧ cfgrAt t.chain k = cfgrAt s.chain k) ∧
    (∃ t, exec .tospecial s = .next t ∧ t.chain.mode = .special ∧
      ∀ k, k < s.chain.chips.length →
        srAt t.chain k = some .unknown ∧ outrAt t.chain k = some .unknown ∧ cfgrAt t.chain k = some .unknown)

/-- R108, with the steady ends of R89. What a chip shows, for either PWM sense. -/
def Obligations.ChipsShowWhatTheEnableLineLets : Prop :=
  ∀ (sense : PwmSense) (c : Chain) (k : Nat) (chip : Chip), c.chips[k]? = some chip →
    (c.mode = .special → ∀ oe, c.shown sense oe k = .unknown) ∧
    (c.mode = .normal →
      c.shown sense (some .low) k = .driven chip.outr ∧
      c.shown sense (some .high) k = .off ∧
      c.shown sense none k = .unknown ∧
      ∀ d : Byte,
        (sense = .activeTime → 0 < d.toNat → d.toNat < 255 →
          c.shown sense (some (.pwm d)) k = .dimmed chip.outr d.toNat) ∧
        (sense = .highTime → 0 < d.toNat → d.toNat < 255 →
          c.shown sense (some (.pwm d)) k = .dimmed chip.outr (255 - d.toNat)) ∧
        (sense = .activeTime ∧ d.toNat = 0 ∨ sense = .highTime ∧ d.toNat = 255 →
          c.shown sense (some (.pwm d)) k = .off) ∧
        (sense = .activeTime ∧ d.toNat = 255 ∨ sense = .highTime ∧ d.toNat = 0 →
          c.shown sense (some (.pwm d)) k = .driven chip.outr))

/-- R111. No feedback: with any other chain, its mode among it, every step gives the same engine and the same host
side. -/
def Obligations.EngineNeverReadsTheChain : Prop :=
  ∀ (s t : State) (c : Chain), step s = .next t →
    ∃ t', step { s with chain := c } = .next t' ∧ t'.engine = t.engine ∧ t'.host = t.host

/-! ### Legal event orders -/

/-- From R135 and R136: between commands in good order, every rising edge a command emits comes with a steady enable line. -/
def Obligations.EnableLineIsSteadyAtEveryEdge : Prop :=
  ∀ (i : Instr) (s t : State), IdleInv s → exec i s = .next t →
    ∃ es, t.engine.trace = s.engine.trace ++ es ∧ steadyAtEdges s.engine.lines es = true

/-- R29 and R137, which the spec derives from R69 and R91. Every data and clock event of a command has one driver, transactions do not nest, and the bus comes
back before the command ends. -/
def Obligations.BusIsHandedOverInOrder : Prop :=
  ∀ (i : Instr) (s t : State), IdleInv s → exec i s = .next t →
    ∃ es, t.engine.trace = s.engine.trace ++ es ∧
      busLegal s.engine.cfg.xport (decide (s.engine.cfg.xport = .delegated)) false es = true

/-- R112, which the spec derives from R66 to R69 and R90. No command emits a second `LE(H)` without an `LE(L)` between, and none but `TOSPECIAL` a rising edge with `LE`
high. -/
def Obligations.ForbiddenLatchFormsAreNeverEmitted : Prop :=
  ∀ (i : Instr) (s t : State), IdleInv s → exec i s = .next t →
    ∃ es, t.engine.trace = s.engine.trace ++ es ∧ latchAlternates .low es = true ∧
      (i ≠ .tospecial → latchClear .low es = true)

/-- From R28: no enable event without the enable line. -/
def Obligations.NoEnableEventWithoutTheLine : Prop :=
  ∀ (i : Instr) (s t : State), IdleInv s → s.engine.cfg.oep = false → exec i s = .next t →
    ∃ es, t.engine.trace = s.engine.trace ++ es ∧ es.all (fun e => !isEnableEvent e) = true

/-- R144, which the spec derives from the command rules. The number of events of each command, and the largest. -/
def Obligations.EventCountsFollowTheTable : Prop :=
  (∀ (i : Instr) (s t : State), exec i s = .next t →
    t.engine.trace.length = s.engine.trace.length + eventCount s.engine i) ∧
  (∀ (i : Instr) (g : Engine), g.cfg.n ≤ 254 → eventCount g i ≤ 7114) ∧
  (∃ (i : Instr) (s : State), IdleInv s ∧ eventCount s.engine i = 7114)

/-! ### The assembler -/

/-- From R63: the word of each command form, for operands within their ranges. -/
def Obligations.AssemblerWritesTheWordsOfItsForms : Prop :=
  ∀ n : Nat,
    (∀ idx byte, idx ≤ 255 → byte ≤ 255 → (assemble n (.bufwr idx byte)).map AsmOut.words =
      .ok [0x10000000#32 ||| BitVec.ofNat 32 idx <<< 16 ||| BitVec.ofNat 32 byte]) ∧
    (assemble n .sendraw).map AsmOut.words = .ok [0x20000000] ∧
    (assemble n .sendchr).map AsmOut.words = .ok [0x30000000] ∧
    (∀ num, num ≤ 65535 → (assemble n (.sendnum num)).map AsmOut.words =
      .ok [0x40000000#32 ||| BitVec.ofNat 32 num]) ∧
    (assemble n .latch).map AsmOut.words = .ok [0x50000000] ∧
    (assemble n .enable).map AsmOut.words = .ok [0x60000000] ∧
    (assemble n .disable).map AsmOut.words = .ok [0x70000000] ∧
    (∀ level, level ≤ 255 → (assemble n (.bright level)).map AsmOut.words =
      .ok [0x80000000#32 ||| BitVec.ofNat 32 level]) ∧
    (assemble n .tonormal).map AsmOut.words = .ok [0x90000000] ∧
    (assemble n .tospecial).map AsmOut.words = .ok [0xA0000000]

/-- From R64: the pseudo-instructions expand as their table says, and what is assembled decodes to it. -/
def Obligations.PseudoInstructionsExpand : Prop :=
  (∀ n : Nat, (assemble n .nop).map AsmOut.words = .ok [0x00000000]) ∧
  (∀ n num : Nat, assemble n (.shownum num) = assemble n (.sendnum num)) ∧
  (∀ (n : Nat) (bytes : List Nat), 1 ≤ bytes.length → bytes.length ≤ 254 → (∀ b ∈ bytes, b ≤ 255) →
    let frame := bytes.zipIdx.map fun (b, k) => Instr.bufwr (BitVec.ofNat 8 k) (BitVec.ofNat 8 b)
    (assemble n (.frame bytes)).map (fun out => out.words.map decodeWord) = .ok frame ∧
    (bytes.length = n → (assemble n (.showraw bytes)).map (fun out => out.words.map decodeWord) =
      .ok (frame ++ [.sendraw])) ∧
    (bytes.length = n → (assemble n (.showstr bytes)).map (fun out => out.words.map decodeWord) =
      .ok (frame ++ [.sendchr])))

/-- From R65: the assembler refuses by name an unknown mnemonic, a wrong number of operands, an operand out of range, a
frame of no or of too many bytes, and a shown frame whose length is not `N`; it accepts a `BUFWR` with `idx` 254 or 255
and warns; and it writes a reserved opcode only for `NOP`. Which of two faults of one line is named, and how a line is cut
into a mnemonic and operands, are the model's choices (log entry 14). -/
def Obligations.AssemblerRefusesByName : Prop :=
  ∀ n : Nat,
    (∀ idx byte, 255 < idx ∨ 255 < byte → assemble n (.bufwr idx byte) = .error .operandOutOfRange) ∧
    (∀ level, 255 < level → assemble n (.bright level) = .error .operandOutOfRange) ∧
    (∀ num, 65535 < num → assemble n (.sendnum num) = .error .operandOutOfRange ∧
      assemble n (.shownum num) = .error .operandOutOfRange) ∧
    (∀ bytes : List Nat, 1 ≤ bytes.length → bytes.length ≤ 254 → (∃ b ∈ bytes, 255 < b) →
      assemble n (.frame bytes) = .error .operandOutOfRange ∧
      (bytes.length = n → assemble n (.showraw bytes) = .error .operandOutOfRange ∧
        assemble n (.showstr bytes) = .error .operandOutOfRange)) ∧
    (∀ bytes : List Nat, bytes.length = 0 ∨ 254 < bytes.length →
      assemble n (.frame bytes) = .error .frameLength) ∧
    (∀ bytes : List Nat, bytes.length ≠ n →
      assemble n (.showraw bytes) = .error .showLength ∧ assemble n (.showstr bytes) = .error .showLength) ∧
    (∀ idx byte, 254 ≤ idx → idx ≤ 255 → byte ≤ 255 →
      (assemble n (.bufwr idx byte)).map AsmOut.warnings = .ok [.ignoredWrite idx]) ∧
    (∀ idx byte, idx ≤ 253 → byte ≤ 255 → (assemble n (.bufwr idx byte)).map AsmOut.warnings = .ok []) ∧
    (∀ (a : AsmStmt) (out : AsmOut), a ≠ .nop → assemble n a = .ok out →
      ∀ w ∈ out.words, 0x1 ≤ (w.extractLsb' 28 4).toNat ∧ (w.extractLsb' 28 4).toNat ≤ 0xA) ∧
    (∀ line : List Char, mnemonicText (lineText line) ≠ [] → mnemonicText (lineText line) ∉ mnemonics →
      assembleLine n line = .error .unknownMnemonic) ∧
    (∀ (line : List Char) (m : AsmMnemonic) (count : Nat), readMnemonic (mnemonicText (lineText line)) = some m →
      operandCount m = some count → (operandTexts (operandText (lineText line))).length ≠ count →
      assembleLine n line = .error .wrongOperandCount)
end

