-- ==== Sys2Proof/Laws/Chain.lean ====
section
/-! SUPPORT. What the chain does, said once per operation. -/

namespace Sys2Proof.Machine

@[simp] theorem Chain.observeAll_nil (c : Chain) (l : Lines) : c.observeAll l [] = c := rfl

@[simp] theorem Chain.observeAll_cons (c : Chain) (l : Lines) (e : Event) (es : List Event) :
    c.observeAll l (e :: es) = (c.observe l e).observeAll (l.after e) es := rfl

theorem Chain.observeAll_append (c : Chain) (l : Lines) (es fs : List Event) :
    c.observeAll l (es ++ fs) = (c.observeAll l es).observeAll (l.afterAll es) fs := by
  induction es generalizing c l with
  | nil => rfl
  | cons e es ih => exact ih _ _

@[simp] theorem Chain.observe_sdi (c : Chain) (l : Lines) (v : Level) : c.observe l (.sdi v) = c := rfl
@[simp] theorem Chain.observe_oe (c : Chain) (l : Lines) (v : OeDrive) : c.observe l (.oe v) = c := rfl
@[simp] theorem Chain.observe_fall (c : Chain) (l : Lines) : c.observe l (.clk .low) = c := rfl
@[simp] theorem Chain.observe_busBegin (c : Chain) (l : Lines) : c.observe l .busBegin = c := rfl
@[simp] theorem Chain.observe_busEnd (c : Chain) (l : Lines) : c.observe l .busEnd = c := rfl
@[simp] theorem Chain.observe_busClose (c : Chain) (l : Lines) : c.observe l .busClose = c := rfl
@[simp] theorem Chain.observe_busOpen (c : Chain) (l : Lines) : c.observe l .busOpen = c := rfl

/-- A rising edge with the latch low shifts the whole chain by one bit. -/
theorem Chain.observe_rise (c : Chain) (l : Lines) (h : l.le = .low) :
    c.observe l (.clk .high) = { c with chips := shiftChips (.ofWire l.sdi) c.chips } := by
  simp [Chain.observe, h]

@[simp] theorem shiftChips_length (t : ChipBit) (cs : List Chip) : (shiftChips t cs).length = cs.length := by
  induction cs generalizing t with
  | nil => rfl
  | cons c cs ih => simp [shiftChips, ih]

/-- No event adds or takes away a chip. -/
@[simp] theorem Chain.observe_length (c : Chain) (l : Lines) (e : Event) :
    (c.observe l e).chips.length = c.chips.length := by
  unfold Chain.observe Chain.lost Chain.latched
  split <;> (try split) <;> simp

@[simp] theorem Chain.observeAll_length (c : Chain) (l : Lines) (es : List Event) :
    (c.observeAll l es).chips.length = c.chips.length := by
  induction es generalizing c l with
  | nil => rfl
  | cons e es ih => simp [ih]

/-- Only a handshake changes the mode. -/
@[simp] theorem Chain.observe_mode (c : Chain) (l : Lines) (e : Event) : (c.observe l e).mode = c.mode := by
  unfold Chain.observe Chain.lost Chain.latched
  split <;> (try split) <;> rfl

@[simp] theorem Chain.observeAll_mode (c : Chain) (l : Lines) (es : List Event) :
    (c.observeAll l es).mode = c.mode := by
  induction es generalizing c l with
  | nil => rfl
  | cons e es ih => simp [ih]

@[simp] theorem Chain.afterHandshake_length (m : ChipMode) (c : Chain) :
    (c.afterHandshake m).chips.length = c.chips.length := by simp [Chain.afterHandshake]

@[simp] theorem Chain.afterHandshake_mode (m : ChipMode) (c : Chain) : (c.afterHandshake m).mode = m := rfl

@[simp] theorem Chain.resize_length (n : Nat) (c : Chain) : (c.resize n).chips.length = n := by
  simp [Chain.resize]; omega

/-- Where the chain length does not change, a reset keeps the chain as it is. -/
theorem Chain.resize_same (c : Chain) : c.resize c.chips.length = c := by
  simp [Chain.resize]

@[simp] theorem Chain.powerOn_length (n : Nat) (m : ChipMode) : (Chain.powerOn n m).chips.length = n := by
  simp [Chain.powerOn]

end Sys2Proof.Machine
end

