-- ==== Sys2Proof/Laws/Memory.lean ====
section
/-! SUPPORT. The frame buffer: a read after a write, and the canonical form that every operation keeps. -/

namespace Sys2Proof.Machine

@[simp] theorem Memory.read_nil (a : Nat) : Memory.read [] a = 0 := rfl

theorem Memory.read_cons (k : Nat) (v : Byte) (m : Memory) (a : Nat) :
    Memory.read ((k, v) :: m) a = if k = a then v else Memory.read m a := rfl

theorem Memory.erase_cons (k : Nat) (v : Byte) (m : Memory) (a : Nat) :
    Memory.erase ((k, v) :: m) a = if k = a then Memory.erase m a else (k, v) :: Memory.erase m a := rfl

theorem Memory.insert_cons (k : Nat) (w : Byte) (m : Memory) (a : Nat) (v : Byte) :
    Memory.insert ((k, w) :: m) a v =
      if a < k then (a, v) :: (k, w) :: m else (k, w) :: Memory.insert m a v := rfl

theorem Memory.read_erase_same (m : Memory) (a : Nat) : (m.erase a).read a = 0 := by
  induction m with
  | nil => rfl
  | cons c m ih =>
    obtain ⟨k, v⟩ := c
    rw [Memory.erase_cons]
    split
    · exact ih
    · next h => rw [Memory.read_cons, if_neg h, ih]

theorem Memory.read_erase_other (m : Memory) (a b : Nat) (hb : b ≠ a) : (m.erase a).read b = m.read b := by
  induction m with
  | nil => rfl
  | cons c m ih =>
    obtain ⟨k, v⟩ := c
    rw [Memory.erase_cons]
    split
    · next h => rw [ih, Memory.read_cons, if_neg (fun hk => hb (hk.symm.trans h))]
    · rw [Memory.read_cons, Memory.read_cons, ih]

theorem Memory.read_insert (m : Memory) (a : Nat) (v : Byte) (b : Nat) (hm : ∀ c ∈ m, c.1 ≠ a) :
    (m.insert a v).read b = if a = b then v else m.read b := by
  induction m with
  | nil => rfl
  | cons c m ih =>
    obtain ⟨k, w⟩ := c
    have hk : k ≠ a := hm _ List.mem_cons_self
    have ih := ih fun c hc => hm c (List.mem_cons_of_mem _ hc)
    rw [Memory.insert_cons]
    split
    · rw [Memory.read_cons]
    · rw [Memory.read_cons, Memory.read_cons, ih]
      by_cases hab : a = b
      · simp only [if_pos hab, if_neg (fun h : k = b => hk (h.trans hab.symm))]
      · simp only [if_neg hab]

theorem Memory.erase_no_index (m : Memory) (a : Nat) : ∀ c ∈ m.erase a, c.1 ≠ a := by
  induction m with
  | nil => intro c hc; cases hc
  | cons c m ih =>
    obtain ⟨k, v⟩ := c
    rw [Memory.erase_cons]
    split
    · exact ih
    · next h => exact List.forall_mem_cons.mpr ⟨h, ih⟩

/-- A read after a write to the same index gives the value written. -/
@[simp] theorem Memory.read_write_same (m : Memory) (a : Nat) (v : Byte) : (m.write a v).read a = v := by
  unfold Memory.write
  split
  · next h => rw [Memory.read_erase_same, h]
  · simp [Memory.read_insert _ _ _ _ (Memory.erase_no_index m a)]

/-- A write leaves every other index alone. -/
theorem Memory.read_write_other (m : Memory) (a b : Nat) (v : Byte) (h : b ≠ a) :
    (m.write a v).read b = m.read b := by
  unfold Memory.write
  split
  · exact Memory.read_erase_other m a b h
  · rw [Memory.read_insert _ _ _ _ (Memory.erase_no_index m a), if_neg (Ne.symm h),
      Memory.read_erase_other m a b h]

@[simp] theorem Memory.wfFrom_nil (lo : Nat) : Memory.wfFrom lo [] = true := rfl

@[simp] theorem Memory.wfFrom_cons (lo k : Nat) (v : Byte) (m : Memory) :
    Memory.wfFrom lo ((k, v) :: m) = true ↔ lo ≤ k ∧ k < 254 ∧ v ≠ 0 ∧ Memory.wfFrom (k + 1) m = true := by
  simp [Memory.wfFrom, and_assoc]

theorem Memory.wfFrom_mono {lo lo' : Nat} (h : lo ≤ lo') {m : Memory} (hm : Memory.wfFrom lo' m = true) :
    Memory.wfFrom lo m = true := by
  cases m with
  | nil => rfl
  | cons c m =>
    obtain ⟨k, v⟩ := c
    simp only [Memory.wfFrom_cons] at hm ⊢
    exact ⟨h.trans hm.1, hm.2⟩

theorem Memory.erase_wfFrom (a : Nat) {lo : Nat} {m : Memory} (hm : Memory.wfFrom lo m = true) :
    Memory.wfFrom lo (m.erase a) = true := by
  induction m generalizing lo with
  | nil => rfl
  | cons c m ih =>
    obtain ⟨k, v⟩ := c
    rw [Memory.wfFrom_cons] at hm
    rw [Memory.erase_cons]
    split
    · exact Memory.wfFrom_mono (Nat.le_succ_of_le hm.1) (ih hm.2.2.2)
    · exact (Memory.wfFrom_cons ..).mpr ⟨hm.1, hm.2.1, hm.2.2.1, ih hm.2.2.2⟩

theorem Memory.insert_wfFrom {a : Nat} {v : Byte} (ha : a < 254) (hv : v ≠ 0) {lo : Nat} (hlo : lo ≤ a)
    {m : Memory} (hne : ∀ c ∈ m, c.1 ≠ a) (hm : Memory.wfFrom lo m = true) :
    Memory.wfFrom lo (m.insert a v) = true := by
  induction m generalizing lo with
  | nil => exact (Memory.wfFrom_cons ..).mpr ⟨hlo, ha, hv, rfl⟩
  | cons c m ih =>
    obtain ⟨k, w⟩ := c
    have hk : k ≠ a := hne _ List.mem_cons_self
    rw [Memory.wfFrom_cons] at hm
    rw [Memory.insert_cons]
    split
    · next h => exact (Memory.wfFrom_cons ..).mpr ⟨hlo, ha, hv, (Memory.wfFrom_cons ..).mpr ⟨h, hm.2⟩⟩
    · exact (Memory.wfFrom_cons ..).mpr ⟨hm.1, hm.2.1, hm.2.2.1,
        ih (by omega) (fun c hc => hne c (List.mem_cons_of_mem _ hc)) hm.2.2.2⟩

/-- A write keeps the canonical form. -/
theorem Memory.write_wf {m : Memory} (hm : m.wf = true) {a : Nat} (ha : a < 254) (v : Byte) :
    (m.write a v).wf = true := by
  unfold Memory.write
  split
  · exact Memory.erase_wfFrom a hm
  · next h =>
    exact Memory.insert_wfFrom ha h (Nat.zero_le a) (Memory.erase_no_index m a) (Memory.erase_wfFrom a hm)

/-- The write of `BUFWR` keeps the canonical form. -/
theorem Engine.writeFb_wf {g : Engine} (h : g.fb.wf = true) (idx : BitVec 8) (byte : Byte) :
    (g.writeFb idx byte).fb.wf = true := by
  unfold Engine.writeFb
  split
  · exact Memory.write_wf h (by omega) byte
  · exact h

/-- The frame buffer right after a reset is in canonical form. -/
theorem Engine.afterReset_wf (i : ConfigInputs) (p : Params) : (Engine.afterReset i p).fb.wf = true := rfl

end Sys2Proof.Machine
end

