-- ==== Sys2Proof/Laws/State.lean ====
section
/-! SUPPORT. One lemma per field per update, so that no later proof unfolds a record update. -/

namespace Sys2Proof.Machine

section Emit
variable (e : Event) (g : Engine)

@[simp] theorem Engine.emit_cfg : (g.emit e).cfg = g.cfg := rfl
@[simp] theorem Engine.emit_params : (g.emit e).params = g.params := rfl
@[simp] theorem Engine.emit_enstate : (g.emit e).enstate = g.enstate := rfl
@[simp] theorem Engine.emit_bright : (g.emit e).bright = g.bright := rfl
@[simp] theorem Engine.emit_fb : (g.emit e).fb = g.fb := rfl
@[simp] theorem Engine.emit_lines : (g.emit e).lines = g.lines.after e := rfl
@[simp] theorem Engine.emit_busOwn : (g.emit e).busOwn = busOwnAfter g.busOwn e := rfl
@[simp] theorem Engine.emit_trace : (g.emit e).trace = g.trace ++ [e] := rfl

end Emit

section WriteFb
variable (idx : BitVec 8) (byte : Byte) (g : Engine)

@[simp] theorem Engine.writeFb_cfg : (g.writeFb idx byte).cfg = g.cfg := by
  unfold Engine.writeFb; split <;> rfl
@[simp] theorem Engine.writeFb_params : (g.writeFb idx byte).params = g.params := by
  unfold Engine.writeFb; split <;> rfl
@[simp] theorem Engine.writeFb_enstate : (g.writeFb idx byte).enstate = g.enstate := by
  unfold Engine.writeFb; split <;> rfl
@[simp] theorem Engine.writeFb_bright : (g.writeFb idx byte).bright = g.bright := by
  unfold Engine.writeFb; split <;> rfl
@[simp] theorem Engine.writeFb_lines : (g.writeFb idx byte).lines = g.lines := by
  unfold Engine.writeFb; split <;> rfl
@[simp] theorem Engine.writeFb_busOwn : (g.writeFb idx byte).busOwn = g.busOwn := by
  unfold Engine.writeFb; split <;> rfl
@[simp] theorem Engine.writeFb_trace : (g.writeFb idx byte).trace = g.trace := by
  unfold Engine.writeFb; split <;> rfl

end WriteFb

section Lines
variable (l : Lines)

@[simp] theorem Lines.after_sdi (v : Level) : l.after (.sdi v) = { l with sdi := .driven v } := rfl
@[simp] theorem Lines.after_clk (v : Level) : l.after (.clk v) = { l with clk := .driven v } := rfl
@[simp] theorem Lines.after_le (v : Level) : l.after (.le v) = { l with le := v } := rfl
@[simp] theorem Lines.after_oe (v : OeDrive) : l.after (.oe v) = { l with oe := some v } := rfl
@[simp] theorem Lines.after_busBegin : l.after .busBegin = l := rfl
@[simp] theorem Lines.after_busEnd : l.after .busEnd = { l with sdi := .x } := rfl
@[simp] theorem Lines.after_busClose : l.after .busClose = { l with sdi := .x } := rfl
@[simp] theorem Lines.after_busOpen : l.after .busOpen = l := rfl

@[simp] theorem Lines.afterAll_nil : l.afterAll [] = l := rfl
@[simp] theorem Lines.afterAll_cons (e : Event) (es : List Event) :
    l.afterAll (e :: es) = (l.after e).afterAll es := rfl
@[simp] theorem Lines.afterAll_append (es fs : List Event) :
    l.afterAll (es ++ fs) = (l.afterAll es).afterAll fs := List.foldl_append

end Lines

section BusOwn
variable (own : Bool)

@[simp] theorem busOwnAfter_sdi (v : Level) : busOwnAfter own (.sdi v) = own := rfl
@[simp] theorem busOwnAfter_clk (v : Level) : busOwnAfter own (.clk v) = own := rfl
@[simp] theorem busOwnAfter_le (v : Level) : busOwnAfter own (.le v) = own := rfl
@[simp] theorem busOwnAfter_oe (v : OeDrive) : busOwnAfter own (.oe v) = own := rfl
@[simp] theorem busOwnAfter_busBegin : busOwnAfter own .busBegin = own := rfl
@[simp] theorem busOwnAfter_busEnd : busOwnAfter own .busEnd = own := rfl
@[simp] theorem busOwnAfter_busClose : busOwnAfter own .busClose = false := rfl
@[simp] theorem busOwnAfter_busOpen : busOwnAfter own .busOpen = true := rfl

end BusOwn

section StateUpdates
variable (s : State)

@[simp] theorem State.driving_engine (f : Engine → Engine) : (s.driving f).engine = f s.engine := rfl
@[simp] theorem State.driving_chain (f : Engine → Engine) : (s.driving f).chain =
    s.chain.observeAll s.engine.lines (Engine.newEvents s.engine (f s.engine)) := rfl
@[simp] theorem State.driving_host (f : Engine → Engine) : (s.driving f).host = s.host := rfl
@[simp] theorem State.handshaking_engine (m : ChipMode) (f : Engine → Engine) :
    (s.handshaking m f).engine = f s.engine := rfl
@[simp] theorem State.handshaking_chain (m : ChipMode) (f : Engine → Engine) : (s.handshaking m f).chain =
    if s.engine.cfg.oep then s.chain.afterHandshake m else s.chain := rfl
@[simp] theorem State.handshaking_host (m : ChipMode) (f : Engine → Engine) :
    (s.handshaking m f).host = s.host := rfl
@[simp] theorem State.noOperation_eq : s.noOperation = s := rfl
@[simp] theorem State.advance_engine : s.advance.engine = s.engine := rfl
@[simp] theorem State.advance_chain : s.advance.chain = s.chain := rfl
@[simp] theorem State.advance_host : s.advance.host = { s.host with cp := s.host.cp + 1 } := rfl
@[simp] theorem State.applyReset_engine :
    s.applyReset.engine = .afterReset s.host.inputs s.engine.params := rfl
@[simp] theorem State.applyReset_chain :
    s.applyReset.chain = s.chain.resize (clampChainLength s.host.inputs.chainLengthReq) := rfl
@[simp] theorem State.applyReset_host : s.applyReset.host = { s.host with cp := 0 } := rfl

end StateUpdates

@[simp] theorem advanceOutcome_next (t : State) : advanceOutcome (.next t) = .next t.advance := rfl

/-- What a step does while `RST` is asserted. -/
theorem step_rst (s : State) (h : s.host.rst = true) : step s = .next s.applyReset := by
  simp [step, h]

/-- What a step does when it takes a word. -/
theorem step_word (s : State) (w : Word) (h : s.host.rst = false) (hw : s.host.prog[s.host.cp]? = some w) :
    step s = advanceOutcome (exec (decodeWord w) s) := by
  simp [step, State.fetch, State.cmdReady, State.offered, h, hw]

/-- What a step does when no word is offered. -/
theorem step_none (s : State) (h : s.host.rst = false) (hw : s.host.prog[s.host.cp]? = none) :
    step s = .next s := by
  simp [step, State.fetch, State.cmdReady, State.offered, h, hw]

end Sys2Proof.Machine
end

