-- ==== Sys2Proof/Laws/Transport.lean ====
section
/-! SUPPORT. What each shared operation over the lines can do, said once: it emits a list of events, and nothing else. -/

namespace Sys2Proof.Machine

open Sys2Proof.Safety

/-- The engine after emitting these events in order. -/
def Engine.emitAll (es : List Event) (g : Engine) : Engine :=
  { g with
    trace := g.trace ++ es
    lines := g.lines.afterAll es
    busOwn := es.foldl busOwnAfter g.busOwn }

section EmitAll
variable (es : List Event) (g : Engine)

@[simp] theorem Engine.emitAll_cfg : (g.emitAll es).cfg = g.cfg := rfl
@[simp] theorem Engine.emitAll_params : (g.emitAll es).params = g.params := rfl
@[simp] theorem Engine.emitAll_enstate : (g.emitAll es).enstate = g.enstate := rfl
@[simp] theorem Engine.emitAll_bright : (g.emitAll es).bright = g.bright := rfl
@[simp] theorem Engine.emitAll_fb : (g.emitAll es).fb = g.fb := rfl
@[simp] theorem Engine.emitAll_trace : (g.emitAll es).trace = g.trace ++ es := rfl
@[simp] theorem Engine.emitAll_lines : (g.emitAll es).lines = g.lines.afterAll es := rfl

@[simp] theorem Engine.emitAll_nil : g.emitAll [] = g := by simp [Engine.emitAll]

theorem Engine.emit_eq_emitAll (e : Event) : g.emit e = g.emitAll [e] := rfl

theorem Engine.emitAll_emitAll (fs : List Event) : (g.emitAll es).emitAll fs = g.emitAll (es ++ fs) := by
  simp [Engine.emitAll]

end EmitAll

/-- An action that only emits shows exactly its events as the new ones. -/
@[simp] theorem Engine.newEvents_emitAll (g : Engine) (es : List Event) : Engine.newEvents g (g.emitAll es) = es := by
  simp [Engine.newEvents]

theorem Engine.newEvents_of_trace {g g' : Engine} {es : List Event} (h : g'.trace = g.trace ++ es) :
    Engine.newEvents g g' = es := by
  simp [Engine.newEvents, h]

theorem Engine.pulse_emits (g : Engine) : g.pulse = g.emitAll pulseEvents := by
  simp [Engine.pulse, Engine.emit_eq_emitAll, Engine.emitAll_emitAll, pulseEvents]

theorem Engine.latchPulse_emits (g : Engine) : g.latchPulse = g.emitAll latchEvents := by
  simp [Engine.latchPulse, Engine.emit_eq_emitAll, Engine.emitAll_emitAll, latchEvents]

theorem Engine.shiftBit_emits (b : Byte) (g : Engine) (i : Nat) :
    g.shiftBit b i = g.emitAll (bitEvents (b.getLsbD i)) := by
  simp [Engine.shiftBit, Engine.pulse_emits, Engine.emit_eq_emitAll, Engine.emitAll_emitAll, bitEvents,
    pulseEvents, levelOfBit]

theorem Engine.xferEmulated_emits (b : Byte) (g : Engine) : g.xferEmulated b = g.emitAll (emulatedEvents b) := by
  simp [Engine.xferEmulated, List.range_succ, Engine.shiftBit_emits, Engine.emitAll_emitAll, emulatedEvents,
    BitVec.getLsbD_eq_getElem]

theorem Engine.xferDelegated_emits (b : Byte) (g : Engine) :
    g.xferDelegated b = g.emitAll (delegatedEvents b) := by
  simp [Engine.xferDelegated, Engine.xferEmulated_emits, Engine.emit_eq_emitAll, Engine.emitAll_emitAll,
    delegatedEvents]

theorem Engine.xfer_emits (b : Byte) (g : Engine) : g.xfer b = g.emitAll (transferEvents g.cfg.xport b) := by
  unfold Engine.xfer transferEvents
  cases g.cfg.xport
  · exact Engine.xferEmulated_emits b g
  · exact Engine.xferDelegated_emits b g

/-- One byte transfer, whole. -/
theorem Engine.sendByte_emits (b : Byte) (g : Engine) : g.sendByte b = g.emitAll (byteEvents g b) := by
  by_cases h : g.enstate = .pwmEnabled
  · simp [Engine.sendByte, EnState.brightnessPwmActive, byteEvents, h, Engine.suspendPwm, Engine.restorePwm,
      Engine.xfer_emits, Engine.emit_eq_emitAll, Engine.emitAll_emitAll]
  · simp [Engine.sendByte, EnState.brightnessPwmActive, byteEvents, h, Engine.xfer_emits]

/-- The events of a byte depend only on registers that no event changes. -/
theorem Engine.byteEvents_emitAll (g : Engine) (es : List Event) (b : Byte) :
    byteEvents (g.emitAll es) b = byteEvents g b := rfl

theorem Engine.sendBytes_emits (bytes : List Byte) (g : Engine) :
    bytes.foldl (fun g b => g.sendByte b) g = g.emitAll (bytes.flatMap (byteEvents g)) := by
  induction bytes generalizing g with
  | nil => simp
  | cons b bytes ih =>
    rw [List.foldl_cons, Engine.sendByte_emits, ih, Engine.emitAll_emitAll, List.flatMap_cons]
    rfl

/-- The one shift-and-latch primitive, whole. -/
theorem Engine.shiftAndLatch_emits (bytes : List Byte) (g : Engine) :
    g.shiftAndLatch bytes = g.emitAll (frameEvents g bytes) := by
  rw [Engine.shiftAndLatch, Engine.sendBytes_emits, Engine.latchPulse_emits, Engine.emitAll_emitAll, frameEvents]

/-- A mode switch, whole: its events, and `ENSTATE` only by the demotion of step 1. -/
theorem Engine.modeSwitch_emits (target : ChipMode) (g : Engine) :
    g.modeSwitch target = { g.emitAll (switchEvents target g) with enstate := enstateAfterSwitch g } := by
  obtain ⟨⟨n, x, oep⟩, ⟨susp, extra, after, cm⟩, st, br, fb, l, own, tr⟩ := g
  cases oep
  · simp [Engine.modeSwitch, switchEvents, enstateAfterSwitch, Engine.emitAll]
  · cases target <;> cases x <;> cases st <;> cases after <;> cases extra <;>
      simp [Engine.modeSwitch, Engine.stopPwm, Engine.releaseBus, Engine.preamble, Engine.selectMode,
        Engine.restoreEnable, Engine.retakeBus, Engine.suspendPwm, Engine.restorePwm, Engine.pulse, Engine.emit,
        EnState.brightnessPwmActive, switchEvents, selectorEvents, restoreEvents, enstateAfterSwitch, pulseEvents,
        Engine.emitAll]

/-- The enable controller with the line present. -/
theorem Engine.driveEnable_emits (v : OeDrive) (st : EnState) (g : Engine) (h : g.cfg.oep = true) :
    g.driveEnable v st = { g.emitAll [.oe v] with enstate := st } := by
  simp [Engine.driveEnable, h, Engine.emit_eq_emitAll]

/-- The enable controller without the line. -/
theorem Engine.driveEnable_absent (v : OeDrive) (st : EnState) (g : Engine) (h : g.cfg.oep = false) :
    g.driveEnable v st = g := by
  simp [Engine.driveEnable, h]

/-- A frame's bytes, as a list counted down from the last position. -/
theorem frameBytes_eq (f : Nat → Byte) (n : Nat) : frameBytes f n = (List.range n).reverse.map f := by
  induction n with
  | zero => rfl
  | succ n ih => simp [frameBytes, ih, List.range_succ]

theorem frameBytes_length (f : Nat → Byte) (n : Nat) : (frameBytes f n).length = n := by
  simp [frameBytes_eq]

end Sys2Proof.Machine
end

