-- ==== Sys2Proof/Laws/Exec.lean ====
section
/-! SUPPORT. What a command does, said once: an action that emits events drives the lines and shows the chain exactly
those events, and each meaning as such an action. -/

namespace Sys2Proof.Machine

open Sys2Proof.Safety

/-- A command whose engine action only emits. -/
theorem State.driving_emits (s : State) (f : Engine → Engine) (es : List Event)
    (h : f s.engine = s.engine.emitAll es) :
    s.driving f = { s with engine := s.engine.emitAll es, chain := s.chain.observeAll s.engine.lines es } := by
  simp [State.driving, h]

/-- A command whose engine action emits and then writes registers. -/
theorem State.driving_trace (s : State) (f : Engine → Engine) (es : List Event)
    (h : (f s.engine).trace = s.engine.trace ++ es) :
    s.driving f = { s with engine := f s.engine, chain := s.chain.observeAll s.engine.lines es } := by
  simp [State.driving, Engine.newEvents_of_trace h]

/-- The events of a frame leave the bus ownership alone. -/
theorem busOwn_emulatedEvents (own : Bool) (b : Byte) : (emulatedEvents b).foldl busOwnAfter own = own := rfl

theorem busOwn_transferEvents (own : Bool) (x : Xport) (b : Byte) :
    (transferEvents x b).foldl busOwnAfter own = own := by
  cases x <;> rfl

theorem busOwn_byteEvents (own : Bool) (g : Engine) (b : Byte) :
    (byteEvents g b).foldl busOwnAfter own = own := by
  unfold byteEvents
  split
  · rw [List.foldl_append, List.foldl_append, busOwn_transferEvents]
    rfl
  · exact busOwn_transferEvents own _ b

theorem busOwn_flatMap_byteEvents (own : Bool) (g : Engine) (bytes : List Byte) :
    (bytes.flatMap (byteEvents g)).foldl busOwnAfter own = own := by
  induction bytes with
  | nil => rfl
  | cons b bytes ih => rw [List.flatMap_cons, List.foldl_append, busOwn_byteEvents, ih]

theorem busOwn_frameEvents (own : Bool) (g : Engine) (bytes : List Byte) :
    (frameEvents g bytes).foldl busOwnAfter own = own := by
  rw [frameEvents, List.foldl_append, busOwn_flatMap_byteEvents]
  rfl

/-- Events that leave the bus ownership alone are just emitted. -/
theorem Engine.emitAll_eq_emitted (g : Engine) (es : List Event) (h : es.foldl busOwnAfter g.busOwn = g.busOwn) :
    g.emitAll es = emitted g es := by
  simp [Engine.emitAll, emitted, h]

/-- A frame command, whole: the machine after the frame's events. -/
theorem State.driving_frame (s : State) (bytes : Engine → List Byte) :
    s.driving (fun g => g.shiftAndLatch (bytes g)) = sent s (frameEvents s.engine (bytes s.engine)) := by
  rw [State.driving_emits s (fun g => g.shiftAndLatch (bytes g)) _
      (Engine.shiftAndLatch_emits (bytes s.engine) s.engine),
    Engine.emitAll_eq_emitted _ _ (busOwn_frameEvents ..)]
  rfl

/-- The bus ownership after a handshake. -/
theorem busOwn_switchEvents (target : ChipMode) (g : Engine) :
    (switchEvents target g).foldl busOwnAfter g.busOwn =
      (g.busOwn || (g.cfg.oep && decide (g.cfg.xport = .delegated))) := by
  obtain ⟨⟨n, x, oep⟩, ⟨susp, extra, after, cm⟩, st, br, fb, l, own, tr⟩ := g
  cases oep
  · simp [switchEvents]
  · cases target <;> cases x <;> cases st <;> cases after <;> cases extra <;> simp [switchEvents, selectorEvents,
      restoreEvents, pulseEvents]

/-- The two lists of bytes a frame of a number can be. -/
theorem numBytes_eq (num : BitVec 16) (n : Nat) : numBytes num n = numFrame n num := by
  have h0 : numByte num 0 = num.extractLsb' 0 8 := by
    ext k hk; simp [numByte]
  have h1 : numByte num 1 = num.extractLsb' 8 8 := by
    ext k hk; simp [numByte]
  match n with
  | 0 => rfl
  | 1 => simp [numBytes, numFrame, List.range_succ, h0]
  | n + 2 => simp [numBytes, numFrame, List.range_succ, h0, h1]

end Sys2Proof.Machine
end

