-- ==== Sys2Proof/Laws/PerInstr.lean ====
section
/-! SUPPORT. A family of one lemma per constructor of Instr: bits 31 to 28 of the word the encoder writes are the
command's opcode, and bits 27 to 24 are the zeros the assembler writes (R55, R58, R60). -/

namespace Sys2Proof.Laws

namespace EncodedOpcode

/-- What the family says of one command. -/
def Statement (i : Instr) : Prop := (encode i).extractLsb' 28 4 = i.opc ∧ (encode i).extractLsb' 24 4 = 0

/-- The fields of a word put together from its parts do not overlap. -/
theorem fields (opc : BitVec 4) (idx : BitVec 8) (data : BitVec 16) :
    let w : Word := opc.setWidth 32 <<< 28 ||| idx.setWidth 32 <<< 16 ||| data.setWidth 32
    w.extractLsb' 28 4 = opc ∧ w.extractLsb' 24 4 = 0 := by
  constructor
  · ext k hk
    have hi : idx.getLsbD (28 + k - 16) = false := BitVec.getLsbD_of_ge _ _ (by omega)
    have hd : data.getLsbD (28 + k) = false := BitVec.getLsbD_of_ge _ _ (by omega)
    simp [hi, hd, show 28 + k < 32 by omega, BitVec.getLsbD_eq_getElem hk]
  · ext k hk
    have hi : idx.getLsbD (24 + k - 16) = false := BitVec.getLsbD_of_ge _ _ (by omega)
    have hd : data.getLsbD (24 + k) = false := BitVec.getLsbD_of_ge _ _ (by omega)
    simp [hi, hd, show 24 + k < 28 by omega]

theorem bufwr (idx : BitVec 8) (byte : Byte) : Statement (.bufwr idx byte) := fields _ _ _
theorem sendraw : Statement .sendraw := fields _ _ _
theorem sendchr : Statement .sendchr := fields _ _ _
theorem sendnum (num : BitVec 16) : Statement (.sendnum num) := fields _ _ _
theorem latch : Statement .latch := fields _ _ _
theorem enable : Statement .enable := fields _ _ _
theorem disable : Statement .disable := fields _ _ _
theorem bright (level : Byte) : Statement (.bright level) := fields _ _ _
theorem tonormal : Statement .tonormal := fields _ _ _
theorem tospecial : Statement .tospecial := fields _ _ _
theorem nop : Statement .nop := fields _ _ _
theorem reservedB : Statement .reservedB := fields _ _ _
theorem reservedC : Statement .reservedC := fields _ _ _
theorem reservedD : Statement .reservedD := fields _ _ _
theorem reservedE : Statement .reservedE := fields _ _ _
theorem reservedF : Statement .reservedF := fields _ _ _

end EncodedOpcode

end Sys2Proof.Laws
end

