-- ==== Sys2Proof/Tests/Slice0.lean ====
section
/-! SUPPORT. Tests. The expected values are those of spec/95_test_vectors.md (its vector names stand in the docstrings)
or written out by hand from the rules named; no value is the model's own answer. The `witness_` theorems show, for each
statement of Certificates/Slice0/Obligations.lean that has hypotheses, concrete states and operands that meet them. -/

namespace Sys2Proof.Tests

open Sys2Proof.Machine Sys2Proof.Safety

/-! ### Helpers -/

/-- `cfg(n, x, oep)` from reset, with the default parameters. -/
def boot (n : Int) (x : Xport) (oep : Bool) : State := .powerOn ⟨n, x, oep⟩ Config.defaultParams

/-- The state with these frame-buffer entries. -/
def fill (m : Memory) (s : State) : State := { s with engine := { s.engine with fb := m } }

/-- The state after `ENABLE`, its event left out. -/
def enabled (s : State) : State :=
  { s with engine := { s.engine with enstate := .enabled, lines := { s.engine.lines with oe := some .low } } }

/-- The state after `BRIGHT d`, its event left out. -/
def dimmed (d : Byte) (s : State) : State :=
  { s with engine :=
    { s.engine with enstate := .pwmEnabled, bright := d, lines := { s.engine.lines with oe := some (.pwm d) } } }

/-- The state with these parameters. -/
def params (p : Params) (s : State) : State := { s with engine := { s.engine with params := p } }

/-- The state whose host offers this program. -/
def offering (prog : List Word) (s : State) : State := { s with host := { s.host with prog := prog } }

/-- The state a command or a step answers, if it answers one. -/
def answer : Host.Outcome State Fault Refusal → Option State
  | .next t => some t
  | .fault _ => none
  | .refused _ => none

/-- The trace of an answer. -/
def traceOf (o : Host.Outcome State Fault Refusal) : Option (List Event) := (answer o).map fun t => t.engine.trace

/-- The shift registers of an answer, first chip first. -/
def srOf (o : Host.Outcome State Fault Refusal) : Option (List ChipByte) :=
  (answer o).map fun t => t.chain.chips.map Chip.sr

/-- The output registers of an answer. -/
def outrOf (o : Host.Outcome State Fault Refusal) : Option (List ChipByte) :=
  (answer o).map fun t => t.chain.chips.map Chip.outr

/-- The configuration registers of an answer. -/
def cfgrOf (o : Host.Outcome State Fault Refusal) : Option (List ChipByte) :=
  (answer o).map fun t => t.chain.chips.map Chip.cfgr

/-- `P`. -/
def P : List Event := [.clk .high, .clk .low]

/-- `LP`. -/
def LP : List Event := [.le .high, .le .low]

/-- Eight data bits, each followed by `P`, first bit first. -/
def shifted (bits : List Level) : List Event := bits.flatMap fun v => .sdi v :: P

/-- `B(0x3F)`: six ones, then two zeros. -/
def B3F : List Event := shifted [.high, .high, .high, .high, .high, .high, .low, .low]

/-- `B(0x06)`, the expansion of the vectors' notation. -/
def B06 : List Event := shifted [.low, .high, .high, .low, .low, .low, .low, .low]

/-- `B(0x00)`. -/
def B00 : List Event := shifted [.low, .low, .low, .low, .low, .low, .low, .low]

/-- `B(0xFF)`. -/
def BFF : List Event := shifted [.high, .high, .high, .high, .high, .high, .high, .high]

/-- `B(0x34)`. -/
def B34 : List Event := shifted [.low, .low, .high, .low, .high, .high, .low, .low]

/-- `B(0x12)`. -/
def B12 : List Event := shifted [.low, .high, .low, .low, .high, .low, .low, .low]

/-! ### Well-formed terms: one ill-formed term for each check, and the ends of each range -/

theorem test_refuses_bufwr_index : (AsmStmt.bufwr 256 1).wellFormed 2 = false := by decide
theorem test_refuses_bufwr_byte : (AsmStmt.bufwr 1 256).wellFormed 2 = false := by decide
theorem test_refuses_sendnum_range : (AsmStmt.sendnum 65536).wellFormed 2 = false := by decide
theorem test_refuses_bright_range : (AsmStmt.bright 256).wellFormed 2 = false := by decide
theorem test_refuses_shownum_range : (AsmStmt.shownum 65536).wellFormed 2 = false := by decide
theorem test_refuses_frame_byte : (AsmStmt.frame [0, 256]).wellFormed 2 = false := by decide
theorem test_refuses_showraw_byte : (AsmStmt.showraw [0, 256]).wellFormed 2 = false := by decide
theorem test_refuses_showstr_code : (AsmStmt.showstr [65, 256]).wellFormed 2 = false := by decide
theorem test_refuses_empty_frame : (AsmStmt.frame []).wellFormed 2 = false := by decide
theorem test_refuses_long_frame : (AsmStmt.frame (List.replicate 255 0)).wellFormed 2 = false := by
  rw [AsmStmt.wellFormed, AsmStmt.error?, frameError, if_pos (by rw [List.length_replicate]; decide)]
  rfl
theorem test_refuses_showraw_length : (AsmStmt.showraw [1, 2, 3]).wellFormed 2 = false := by decide
theorem test_refuses_showstr_length : (AsmStmt.showstr [65]).wellFormed 2 = false := by decide
theorem test_accepts_the_ends_of_the_ranges :
    (AsmStmt.bufwr 255 255).wellFormed 2 ∧ (AsmStmt.bufwr 0 0).wellFormed 2 ∧ (AsmStmt.sendnum 65535).wellFormed 2 ∧
    (AsmStmt.bright 255).wellFormed 2 ∧ (AsmStmt.shownum 0).wellFormed 2 ∧ (AsmStmt.frame [255]).wellFormed 2 ∧
    (AsmStmt.showraw [0, 255]).wellFormed 2 ∧
    (AsmStmt.showstr [65, 66]).wellFormed 2 := by decide
theorem test_accepts_the_longest_frame : (AsmStmt.frame (List.replicate 254 0)).wellFormed 2 = true := by
  rw [AsmStmt.wellFormed, AsmStmt.error?, frameError, if_neg (by rw [List.length_replicate]; decide), rangeError,
    List.all_replicate]
  rfl

/-! ### Decoding: words written out from the table of R55, `OPC | RSV | IDX | DATA` -/

theorem test_decode_bufwr : decodeWord 0b0001_0000_00000001_00000000_00000110 = .bufwr 1 6 := by decide
theorem test_decode_bufwr_ignored : decodeWord 0b0001_1111_00000001_11111111_00000110 = .bufwr 1 6 := by decide
theorem test_decode_sendraw : decodeWord 0b0010_0000_11111111_11111111_11111111 = .sendraw := by decide
theorem test_decode_sendchr : decodeWord 0b0011_0000_00000000_00000000_00000000 = .sendchr := by decide
theorem test_decode_sendnum : decodeWord 0b0100_1111_11111111_00010010_00110100 = .sendnum 0x1234 := by decide
theorem test_decode_latch : decodeWord 0b0101_0000_00000000_00000000_00000000 = .latch := by decide
theorem test_decode_enable : decodeWord 0b0110_0000_00000000_00000000_00000000 = .enable := by decide
theorem test_decode_disable : decodeWord 0b0111_0000_00000000_00000000_00000000 = .disable := by decide
theorem test_decode_bright : decodeWord 0b1000_0000_00000000_11111111_10000000 = .bright 128 := by decide
theorem test_decode_tonormal : decodeWord 0b1001_1010_10111100_11011110_11110000 = .tonormal := by decide
theorem test_decode_tospecial : decodeWord 0b1010_0000_00000000_00000000_00000000 = .tospecial := by decide
theorem test_decode_nop : decodeWord 0b0000_0000_00000000_00000000_00000000 = .nop := by decide
theorem test_decode_reserved :
    decodeWord 0b1011_0000_00000000_00000000_00000000 = .reservedB ∧
    decodeWord 0b1100_1111_11111111_11111111_11111111 = .reservedC ∧
    decodeWord 0b1101_0000_00000000_00000000_00000000 = .reservedD ∧
    decodeWord 0b1110_0000_00000000_00000000_00000000 = .reservedE ∧
    decodeWord 0b1111_0000_00000000_00000000_00000000 = .reservedF ∧
    decodeWord 0xFFFFFFFF = .reservedF := by decide
/-- The words of R63. -/
theorem test_encode_words :
    encode (.bufwr 1 0x06) = 0x10010006 ∧ encode (.sendnum 0xFFFF) = 0x4000FFFF ∧ encode (.bright 0x80) = 0x80000080 ∧
    encode .sendraw = 0x20000000 ∧ encode .sendchr = 0x30000000 ∧ encode .latch = 0x50000000 ∧
    encode .enable = 0x60000000 ∧ encode .disable = 0x70000000 ∧ encode .tonormal = 0x90000000 ∧
    encode .tospecial = 0xA0000000 ∧ encode .nop = 0 ∧ encode .reservedF = 0xF0000000 := by decide
/-- R42: bits 7:0 come first. -/
theorem test_decode_bytes : decode [0x34, 0x12, 0x00, 0x40, 0xAA] = .ok (.sendnum 0x1234, [0xAA]) := by decide
theorem test_decode_three_bytes : decode [0x34, 0x12, 0x00] = .error .truncated := by decide
theorem test_decode_table_word : decodeTableWord 32 0x10FE0099 = some (.bufwr 254 0x99) := by decide
theorem test_step_runs_the_placed_word :
    (answer (step (State.reset.withFetchWord 32 0x60000000))).map (fun t => (t.engine.enstate, t.host.cp)) =
      some (.enabled, 1) := by decide

/-! ### Reset -/

/-- W1. -/
theorem test_chain_length_clamp :
    [-1000, -1, 0, 1, 2, 100, 253, 254, 255, 1000, 2 ^ 40].map clampChainLength =
      [1, 1, 1, 1, 2, 100, 253, 254, 254, 254, 254] := by decide
theorem test_reset_lines :
    (boot 2 .emulated true).engine.lines = ⟨.driven .low, .driven .low, .low, some .high⟩ ∧
    (boot 2 .delegated false).engine.lines = ⟨.x, .driven .low, .low, none⟩ ∧
    (boot 2 .delegated true).engine.busOwn = true ∧ (boot 2 .emulated true).engine.busOwn = false := by decide
/-- R18. -/
theorem test_enstate_codes :
    EnState.code .disabled = 0b00 ∧ EnState.code .enabled = 0b01 ∧ EnState.code .pwmEnabled = 0b10 := by decide
/-- R145: 8 periods of 10 MHz are 800 ns. -/
theorem test_delegated_byte_time : Config.delegatedByteNs = 800 := by decide
/-- R131, R132: a reset step empties the trace and keeps the chain's mode. -/
theorem test_reset_step :
    (answer (step (State.setRst true { enabled (boot 2 .emulated true) with chain := ⟨[.unknown, .unknown], .special⟩ }))).map
      (fun t => (t.engine.enstate, t.engine.lines.oe, t.chain.mode)) = some (.disabled, some .high, .special) := by decide
theorem test_idle_engine_waits : answer (step State.reset) = some State.reset := by decide

/-! ### Frame buffer -/

/-- V-BUF1. -/
theorem test_bufwr_beyond_the_chain :
    (answer (exec (.bufwr 5 0x77) (boot 2 .emulated true))).map (fun t => (t.engine.fb.read 5, t.engine.trace)) =
      some (0x77, []) := by decide
/-- V-BUF2. -/
theorem test_bufwr_without_an_entry :
    answer (exec (.bufwr 254 0x99) (boot 2 .emulated true)) = some (boot 2 .emulated true) := by decide
theorem test_memory_last_write_wins : ((Memory.write [] 0 0x11).write 0 0x22).read 0 = 0x22 := by decide
theorem test_memory_zero_leaves_no_entry : (Memory.write [(0, 0x11)] 0 0x00) = [] := by decide
/-- W2. -/
theorem test_segmap_blanks : [0, 31, 128, 200, 255].map segmap = [0x00, 0x00, 0x00, 0x00, 0x00] := rfl
theorem test_segmap_table :
    segmap 32 = Config.seg 0 ∧ segmap 65 = Config.seg 33 ∧ segmap 126 = Config.seg 94 ∧ segmap 127 = Config.seg 95 :=
  ⟨rfl, rfl, rfl, rfl⟩

/-! ### Data shift and latch -/

/-- W7 without its PWM: `FB = [0x3F, 0x06]` goes out last chip first. -/
theorem test_sendraw_trace :
    traceOf (exec .sendraw (fill [(0, 0x3F), (1, 0x06)] (boot 2 .emulated true))) = some (B06 ++ B3F ++ LP) := by decide
theorem test_sendraw_chain :
    outrOf (exec .sendraw (fill [(0, 0x3F), (1, 0x06)] (boot 2 .emulated true))) =
      some [.ofByte 0x3F, .ofByte 0x06] := by decide
/-- W7. -/
theorem test_sendraw_suspends_pwm :
    traceOf (exec .sendraw (dimmed 16 (fill [(0, 0x3F), (1, 0x06)] (boot 2 .emulated true)))) =
      some ([.oe .low] ++ B06 ++ [.oe (.pwm 16), .oe .low] ++ B3F ++ [.oe (.pwm 16)] ++ LP) := by decide
/-- V-CHR2. -/
theorem test_sendchr_blank : traceOf (exec .sendchr (fill [(0, 200)] (boot 1 .emulated true))) = some (B00 ++ LP) := by
  decide
/-- P3, `cp = 1`: the bits of `SEG[33]`, bit 0 first. -/
theorem test_sendchr_table :
    traceOf (exec .sendchr (fill [(0, 65)] (boot 1 .emulated true))) =
      some (shifted ((List.range 8).map fun i => levelOfBit ((Config.seg 33).getLsbD i)) ++ LP) := rfl
/-- W8 and V-NUM2: low byte first. -/
theorem test_sendnum_trace :
    traceOf (exec (.sendnum 0x1234) (boot 4 .emulated true)) = some (B34 ++ B12 ++ LP) := by decide
/-- V-NUM2: the old bytes move two positions up. -/
theorem test_sendnum_shifts_the_chain :
    srOf (exec (.sendnum 0x1234)
      { boot 4 .emulated true with chain :=
        ⟨[0x11, 0x22, 0x33, 0x44].map fun b => ⟨.ofByte b, .unknown, .unknown⟩, .normal⟩ }) =
      some [.ofByte 0x12, .ofByte 0x34, .ofByte 0x11, .ofByte 0x22] := by decide
/-- V-NUM1. -/
theorem test_sendnum_one_chip : traceOf (exec (.sendnum 0x1234) (boot 1 .emulated true)) = some (B34 ++ LP) := by decide
/-- V-T4. -/
theorem test_suspend_level_high :
    traceOf (exec (.sendnum 0xFF)
      (params { Config.defaultParams with suspendLevel := .high } (dimmed 64 (boot 1 .emulated true)))) =
      some ([.oe .high] ++ BFF ++ [.oe (.pwm 64)] ++ LP) := by decide
/-- V-T5, with the byte `0x34`. -/
theorem test_suspension_lies_outside_the_transaction :
    traceOf (exec (.sendnum 0x34) (dimmed 64 (boot 1 .delegated true))) =
      some ([.oe .low, .busBegin] ++ B34 ++ [.busEnd, .oe (.pwm 64)] ++ LP) := by decide
/-- V-T7. -/
theorem test_latch : traceOf (exec .latch (boot 1 .emulated true)) = some [.le .high, .le .low] := by decide
/-- V-MS13: a frame in special mode is latched into the configuration registers. -/
theorem test_latch_in_special_mode :
    cfgrOf (exec .latch { boot 1 .emulated true with chain := ⟨[⟨.ofByte 1, .unknown, .unknown⟩], .special⟩ }) =
      some [.ofByte 1] := by decide

/-! ### Output enable and brightness -/

/-- V-EN2. -/
theorem test_enable : traceOf (exec .enable (boot 1 .emulated true)) = some [.oe .low] := by decide
/-- V-EN7: `BRIGHT` is kept. -/
theorem test_enable_leaves_pwm :
    (answer (exec .enable (dimmed 0x10 (boot 1 .emulated true)))).map (fun t => (t.engine.enstate, t.engine.bright)) =
      some (.enabled, 0x10) := by decide
/-- V-EN1. -/
theorem test_disable_again : traceOf (exec .disable (boot 1 .emulated true)) = some [.oe .high] := by decide
theorem test_disable_without_line :
    answer (exec .disable (boot 2 .delegated false)) = some (boot 2 .delegated false) := by decide
/-- V-EN4. -/
theorem test_bright_zero :
    (answer (exec (.bright 0) (boot 1 .emulated true))).map (fun t => (t.engine.enstate, t.engine.lines.oe)) =
      some (.pwmEnabled, some (.pwm 0)) := by decide
/-- P3, `cp = 3`. -/
theorem test_bright_without_line :
    answer (exec (.bright 200) (boot 1 .emulated false)) = some (boot 1 .emulated false) := by decide

/-! ### Mode switch -/

/-- V-MS7. -/
theorem test_tonormal_delegated_pwm :
    traceOf (exec .tonormal (dimmed 64 (boot 2 .delegated true))) =
      some ([.oe .low, .busClose, .oe .high] ++ P ++ [.oe .low] ++ P ++ [.oe .high] ++ P ++ P ++ P ++
        [.oe .low, .busOpen]) := by decide
/-- V-MS9. -/
theorem test_tonormal_resume :
    traceOf (exec .tonormal
      (params { Config.defaultParams with pwmAfterSwitch := .resume } (dimmed 64 (boot 2 .emulated true)))) =
      some ([.oe .low, .oe .high] ++ P ++ [.oe .low] ++ P ++ [.oe .high] ++ P ++ P ++ P ++ [.oe (.pwm 64)]) := by decide
/-- V-MS11. -/
theorem test_tospecial_extra_pulse :
    traceOf (exec .tospecial
      (params { Config.defaultParams with specialExtraPulse := true } (boot 2 .emulated true))) =
      some ([.oe .high] ++ P ++ [.oe .low] ++ P ++ [.oe .high] ++ P ++ P ++ [.le .high] ++ P ++ [.le .low] ++ P) := by
  decide
/-- V-MS5. -/
theorem test_tospecial_leaves_the_line_high :
    (answer (exec .tospecial (enabled (boot 2 .emulated true)))).map
      (fun t => (t.engine.enstate, t.engine.lines.oe, t.chain.mode)) = some (.enabled, some .high, .special) := by decide

/-! ### Reserved opcodes -/

theorem test_nop : answer (exec .nop (boot 1 .emulated true)) = some (boot 1 .emulated true) := by decide
theorem test_reserved :
    [Instr.reservedB, .reservedC, .reservedD, .reservedE, .reservedF].map
      (fun i => answer (exec i (boot 1 .emulated true))) = List.replicate 5 (some (boot 1 .emulated true)) := by decide

/-! ### What the chips show (the note after V-EN8) -/

theorem test_shown_at_the_ends :
    Shown.ofLine .activeTime .normal (some (.pwm 0)) (.ofByte 1) = .off ∧
    Shown.ofLine .highTime .normal (some (.pwm 0)) (.ofByte 1) = .driven (.ofByte 1) ∧
    Shown.ofLine .activeTime .normal (some (.pwm 255)) (.ofByte 1) = .driven (.ofByte 1) ∧
    Shown.ofLine .highTime .normal (some (.pwm 255)) (.ofByte 1) = .off := by decide

/-! ### Assembler vectors -/

theorem test_asm_showraw :
    (assembleLine 2 "SHOWRAW 0x3F, 0x06".toList).map AsmOut.words = .ok [0x1000003F, 0x10010006, 0x20000000] := by decide
theorem test_asm_showstr :
    (assembleLine 2 ("SHOWSTR ".toList ++ [quoteChar, 'A', 'B', quoteChar])).map AsmOut.words =
      .ok [0x10000041, 0x10010042, 0x30000000] := by decide
theorem test_asm_shownum : (assembleLine 2 "SHOWNUM 65535".toList).map AsmOut.words = .ok [0x4000FFFF] := by decide
theorem test_asm_bufwr_range : assembleLine 2 "BUFWR 256, 1".toList = .error .operandOutOfRange := by decide
theorem test_asm_showraw_length : assembleLine 2 "SHOWRAW 1, 2, 3".toList = .error .showLength := by decide
theorem test_asm_bright_range : assembleLine 2 "BRIGHT 256".toList = .error .operandOutOfRange := by decide
theorem test_asm_warning :
    (assembleLine 2 "BUFWR 254, 0x9_9 ; no entry".toList).map AsmOut.warnings = .ok [.ignoredWrite 254] := by decide
theorem test_asm_unknown_mnemonic : assembleLine 2 "BLINK".toList = .error .unknownMnemonic := by decide
theorem test_asm_operand_count : assembleLine 2 "LATCH 1".toList = .error .wrongOperandCount := by decide
theorem test_asm_showstr_operand_count :
    assembleLine 2 ("SHOWSTR ".toList ++ [quoteChar, 'A', quoteChar, ',', ' ', quoteChar, 'B', quoteChar]) =
      .error .wrongOperandCount := by decide
theorem test_asm_comma_in_string :
    (assembleLine 2 ("SHOWSTR ".toList ++ [quoteChar, 'A', ',', quoteChar])).map AsmOut.words =
      .ok [0x10000041, 0x1001002C, 0x30000000] := by decide
theorem test_asm_malformed_operand : assembleLine 2 "BRIGHT 1x".toList = .error .malformedOperand := by decide
/-- The model's choice of log entry 14. -/
theorem test_asm_signed_operand : assembleLine 2 "BRIGHT -1".toList = .error .malformedOperand := by decide
theorem test_asm_comment_line : (assembleLine 2 "  ; a comment".toList).map AsmOut.words = .ok [] := by decide
theorem test_asm_text :
    (assembleText 2 "NOP\nENABLE\nFRAME\n".toList) = .error (3, .frameLength) := by decide

/-! ### Witnesses for the statements -/

/-- A state between commands, with a program of one word and a frame. -/
def readyEmulated : State := offering [0x20000000] (fill [(0, 0x3F), (1, 0x06)] (boot 2 .emulated true))

/-- The same under the delegated transport, without the enable line. -/
def readyDelegated : State := offering [0x20000000] (fill [(0, 0x3F), (1, 0x06)] (boot 2 .delegated false))

/-- A state between commands with PWM active, its one event in the trace. -/
def readyDimmed : State :=
  { dimmed 64 (boot 1 .delegated true) with
    engine := { (dimmed 64 (boot 1 .delegated true)).engine with trace := [.oe (.pwm 64)] } }

/-- A state under `RST`, the host asking for three chips instead of two. -/
def resetting : State := (readyEmulated.setInputs ⟨3, .delegated, true⟩).setRst true

/-- A state after `ENABLE` and `TOSPECIAL`: the line is high while `ENSTATE` is `ENABLED` (R100). -/
def specialEnabled : State :=
  { readyEmulated with
    engine :=
      { readyEmulated.engine with
        enstate := .enabled
        trace := [.oe .low, .oe .high] ++ P ++ [.oe .low] ++ P ++ [.oe .high] ++ P ++ [.le .high] ++ P ++ [.le .low] ++ P }
    chain := ⟨[.unknown, .unknown], .special⟩ }

theorem witness_idle_resetting : IdleInv resetting := by constructor <;> decide
theorem witness_idle_special : IdleInv specialEnabled := by constructor <;> decide
theorem witness_idle_emulated : IdleInv readyEmulated := by constructor <;> decide
theorem witness_idle_delegated : IdleInv readyDelegated := by constructor <;> decide
theorem witness_idle_dimmed : IdleInv readyDimmed := by constructor <;> decide
theorem witness_trace_safe : TraceSafe readyDimmed := by constructor <;> decide

/-- Below, at and above each bound. -/
theorem witness_ChainLengthIsClampedAtReset :
    ((0 : Int) < 1 ∧ (254 : Int) < 255) ∧ ((1 : Int) ≤ 1 ∧ (1 : Int) ≤ 254) ∧ (1 : Int) ≤ 254 ∧ (254 : Int) ≤ 254 := by
  decide
theorem witness_ChainIsUnknownAtPowerOn :
    (0 < (boot 0 .emulated true).engine.cfg.n) ∧ 253 < (boot 255 .emulated true).engine.cfg.n := by decide
theorem witness_NoCommandIsTakenInReset : (readyEmulated.setRst true).host.rst = true := rfl
theorem witness_RepeatedResetKeepsOnlyTheChain :
    let s := readyEmulated.setRst true
    let s' := (enabled (boot 2 .emulated true)).setRst true
    s.host.rst = true ∧ s'.host.rst = true ∧ s.host.inputs = s'.host.inputs ∧ s.engine.params = s'.engine.params ∧
    (s.chain.chips.length : Int) = min (max s.host.inputs.chainLengthReq 1) 254 ∧
    (∃ t, step s = .next t) ∧ ∃ t', step s' = .next t' :=
  ⟨rfl, rfl, rfl, rfl, by decide, ⟨_, rfl⟩, ⟨_, rfl⟩⟩
/-- A command, and a reset that samples another chain length. -/
theorem witness_StepKeepsInvariant :
    (IdleInv readyEmulated ∧ ∃ t, step readyEmulated = .next t) ∧
    (IdleInv resetting ∧ resetting.host.rst = true ∧ resetting.host.inputs.chainLengthReq ≠ resetting.engine.cfg.n ∧
      ∃ t, step resetting = .next t) ∧
    (IdleInv specialEnabled ∧ ∃ t, step specialEnabled = .next t) :=
  ⟨⟨witness_idle_emulated, _, rfl⟩, ⟨witness_idle_resetting, rfl, by decide, _, rfl⟩, witness_idle_special, _, rfl⟩
theorem witness_StepKeepsTheTraceLegal :
    IdleInv readyDimmed ∧ TraceSafe readyDimmed ∧ ∃ t, step readyDimmed = .next t :=
  ⟨witness_idle_dimmed, witness_trace_safe, _, rfl⟩
theorem witness_EncodeThenDecodeGivesTheCommandBack : (Instr.bufwr 255 0xFF).wellFormed = true := rfl
/-- One word for each opcode. -/
theorem witness_DecoderFollowsTheOpcodeMap :
    (0x00000001#32 &&& 0xF0000000 = 0x00000000) ∧ (0x1FFFFFFF#32 &&& 0xF0000000 = 0x10000000) ∧
    (0x2FFFFFFF#32 &&& 0xF0000000 = 0x20000000) ∧ (0x3FFFFFFF#32 &&& 0xF0000000 = 0x30000000) ∧
    (0x4FFFFFFF#32 &&& 0xF0000000 = 0x40000000) ∧ (0x5FFFFFFF#32 &&& 0xF0000000 = 0x50000000) ∧
    (0x6FFFFFFF#32 &&& 0xF0000000 = 0x60000000) ∧ (0x7FFFFFFF#32 &&& 0xF0000000 = 0x70000000) ∧
    (0x8FFFFFFF#32 &&& 0xF0000000 = 0x80000000) ∧ (0x9FFFFFFF#32 &&& 0xF0000000 = 0x90000000) ∧
    (0xAFFFFFFF#32 &&& 0xF0000000 = 0xA0000000) ∧ (0xBFFFFFFF#32 &&& 0xF0000000 = 0xB0000000) ∧
    (0xCFFFFFFF#32 &&& 0xF0000000 = 0xC0000000) ∧ (0xDFFFFFFF#32 &&& 0xF0000000 = 0xD0000000) ∧
    (0xEFFFFFFF#32 &&& 0xF0000000 = 0xE0000000) ∧ (0xFFFFFFFF#32 &&& 0xF0000000 = 0xF0000000) := by decide
theorem witness_IgnoredFieldsDoNotMatter :
    (0x1F01FF06#32 &&& readMask (decodeWord 0x1F01FF06) = 0x10010006#32 &&& readMask (decodeWord 0x1F01FF06)) ∧
    0x1F01FF06#32 ≠ 0x10010006#32 := by decide
theorem witness_HostLinkSendsTheLowByteFirst : ([] : List Byte).length < 4 ∧ ([1, 2, 3] : List Byte).length < 4 := by
  decide
theorem witness_StepRunsTheDecodedCommand :
    readyEmulated.host.rst = false ∧ readyEmulated.host.prog[readyEmulated.host.cp]? = some 0x20000000 ∧
    decodeWord 0x20000000 = .sendraw ∧ Instr.sendraw.wellFormed = true ∧ ∃ t, exec .sendraw readyEmulated = .next t :=
  ⟨rfl, rfl, rfl, rfl, _, rfl⟩
/-- Before the last word, and at the end of the program. -/
theorem witness_CommandPointerMovesByOne :
    (readyEmulated.host.rst = false ∧ (∃ t, step readyEmulated = .next t) ∧
      readyEmulated.host.cp < readyEmulated.host.prog.length) ∧
    ((boot 2 .emulated true).host.rst = false ∧ (∃ t, step (boot 2 .emulated true) = .next t) ∧
      (boot 2 .emulated true).host.prog.length ≤ (boot 2 .emulated true).host.cp) :=
  ⟨⟨rfl, ⟨_, rfl⟩, by decide⟩, rfl, ⟨_, rfl⟩, by decide⟩
theorem witness_TraceOnlyGrows : ∃ t, exec .sendraw readyEmulated = .next t := ⟨_, rfl⟩
theorem witness_ConfigurationIsReadOnly : ∃ t, exec .tospecial readyEmulated = .next t := ⟨_, rfl⟩
theorem witness_BufwrWritesOneEntry :
    (0x10FE0099#32).extractLsb' 28 4 = 0x1 ∧ (0 : BitVec 8).toNat ≤ 253 ∧ (253 : BitVec 8).toNat ≤ 253 ∧
    254 ≤ (254 : BitVec 8).toNat ∧ 254 ≤ (255 : BitVec 8).toNat := by decide
theorem witness_BufwrIsIdempotent : ∃ t, exec (.bufwr 1 0x06) readyEmulated = .next t := ⟨_, rfl⟩
theorem witness_CanonicalBuffersThatReadAlikeAreEqual :
    let m := (Memory.write [] 1 0x06).write 0 0x3F
    let m' := (Memory.write [] 0 0x3F).write 1 0x06
    m.wf = true ∧ m'.wf = true ∧ ∀ a, m.read a = m'.read a := ⟨by decide, by decide, fun _ => rfl⟩
theorem witness_OnlyBufwrWritesTheFrameBuffer :
    (∀ idx byte, Instr.sendchr ≠ .bufwr idx byte) ∧ ∃ t, exec .sendchr readyEmulated = .next t :=
  ⟨(fun _ _ h => by cases h), _, rfl⟩
theorem witness_EntriesBeyondTheChainAreNeverRead :
    (∀ k, k < readyEmulated.engine.cfg.n →
      Memory.read [(0, 0x3F), (1, 0x06), (2, 0xFF)] k = readyEmulated.engine.fb.read k) ∧
    (∀ idx byte, Instr.sendraw ≠ .bufwr idx byte) ∧ ∃ t, exec .sendraw readyEmulated = .next t :=
  ⟨by decide, (fun _ _ h => by cases h), _, rfl⟩
theorem witness_SegmapFollowsTheRule :
    (32 ≤ (32 : Byte).toNat ∧ (32 : Byte).toNat ≤ 127) ∧ (32 ≤ (127 : Byte).toNat ∧ (127 : Byte).toNat ≤ 127) ∧
    (31 : Byte).toNat < 32 ∧ 127 < (128 : Byte).toNat := by decide
theorem witness_SendByteSuspendsAndRestoresPwm :
    readyDimmed.engine.enstate = .pwmEnabled ∧ readyEmulated.engine.enstate ≠ .pwmEnabled := by decide
theorem witness_SendrawSendsTheFrameLastChipFirst : (0x20FFFFFF#32).extractLsb' 28 4 = 0x2 := by decide
theorem witness_SendchrSendsTheMappedFrame : (0x30FFFFFF#32).extractLsb' 28 4 = 0x3 := by decide
theorem witness_SendnumSendsAtMostTwoBytes :
    (0x4FFF1234#32).extractLsb' 28 4 = 0x4 ∧ (boot 0 .emulated true).engine.cfg.n = 1 ∧
    2 ≤ (boot 2 .emulated true).engine.cfg.n ∧ 2 ≤ (boot 254 .emulated true).engine.cfg.n := by decide
theorem witness_LatchEmitsOneLatchPulse :
    (0x50000000#32).extractLsb' 28 4 = 0x5 ∧ readyEmulated.engine.lines.le = .low := by decide
theorem witness_OneLatchPulseEndsEveryFrame :
    ((Instr.sendraw = .sendraw ∨ Instr.sendraw = .sendchr) ∧ 2 = readyEmulated.engine.cfg.n) ∧
    ((∃ num, Instr.sendnum 7 = .sendnum num) ∧ 1 = min readyDimmed.engine.cfg.n 2) ∧
    (∃ t, exec .sendraw readyEmulated = .next t) ∧ ∃ t, exec (.sendnum 7) readyDimmed = .next t :=
  ⟨⟨.inl rfl, rfl⟩, ⟨⟨7, rfl⟩, rfl⟩, ⟨_, rfl⟩, ⟨_, rfl⟩⟩
/-- Each command, each transport, with and without PWM, on one chip and on two. -/
theorem witness_LinesRestAfterAFrame :
    (IdleInv readyEmulated ∧ readyEmulated.engine.cfg.xport = .emulated ∧ readyEmulated.engine.enstate ≠ .pwmEnabled ∧
      (∃ t, exec .sendraw readyEmulated = .next t) ∧ ∃ t, exec .sendchr readyEmulated = .next t) ∧
    (IdleInv readyDimmed ∧ readyDimmed.engine.cfg.xport = .delegated ∧ readyDimmed.engine.enstate = .pwmEnabled ∧
      readyDimmed.engine.cfg.n = 1 ∧ ∃ t, exec (.sendnum 7) readyDimmed = .next t) ∧
    (IdleInv readyDelegated ∧ readyDelegated.engine.cfg.n ≠ 1 ∧ ∃ t, exec (.sendnum 7) readyDelegated = .next t) :=
  ⟨⟨witness_idle_emulated, by decide, by decide, ⟨_, rfl⟩, ⟨_, rfl⟩⟩,
   ⟨witness_idle_dimmed, by decide, by decide, by decide, ⟨_, rfl⟩⟩, witness_idle_delegated, by decide, ⟨_, rfl⟩⟩
theorem witness_EnableDrivesTheLineLow :
    (0x60000000#32).extractLsb' 28 4 = 0x6 ∧ readyEmulated.engine.cfg.oep = true ∧
    readyDelegated.engine.cfg.oep = false := by decide
theorem witness_DisableDrivesTheLineHigh :
    (0x70000000#32).extractLsb' 28 4 = 0x7 ∧ readyEmulated.engine.cfg.oep = true ∧
    readyDelegated.engine.cfg.oep = false := by decide
theorem witness_BrightStartsPwmAtTheLevel :
    (0x8000FF10#32).extractLsb' 28 4 = 0x8 ∧ readyEmulated.engine.cfg.oep = true ∧
    readyDelegated.engine.cfg.oep = false := by decide
theorem witness_FiveCommandsAreNoOpsWithoutTheEnableLine : readyDelegated.engine.cfg.oep = false := rfl
/-- Each clause: without the line; the three commands of the controller; a demotion; no demotion; any other command. -/
theorem witness_EnableStateMachineHasOnlyItsTransitions :
    ((∃ t, exec (.bright 9) readyDelegated = .next t) ∧ readyDelegated.engine.cfg.oep = false) ∧
    ((∃ t, exec .enable readyDimmed = .next t) ∧ readyDimmed.engine.cfg.oep = true) ∧
    ((∃ t, exec .disable readyDimmed = .next t) ∧ ∃ t, exec (.bright 9) readyDimmed = .next t) ∧
    ((∃ t, exec .tonormal readyDimmed = .next t) ∧ readyDimmed.engine.enstate = .pwmEnabled ∧
      readyDimmed.engine.params.pwmAfterSwitch = .demote) ∧
    ((∃ t, exec .tospecial readyEmulated = .next t) ∧ readyEmulated.engine.cfg.oep = true ∧
      readyEmulated.engine.enstate ≠ .pwmEnabled) ∧
    ((∃ t, exec .latch readyDimmed = .next t) ∧ Instr.latch ≠ .enable ∧ Instr.latch ≠ .disable ∧
      (∀ d, Instr.latch ≠ .bright d) ∧ Instr.latch ≠ .tonormal ∧ Instr.latch ≠ .tospecial) :=
  ⟨⟨⟨_, rfl⟩, rfl⟩, ⟨⟨_, rfl⟩, rfl⟩, ⟨⟨_, rfl⟩, ⟨_, rfl⟩⟩, ⟨⟨_, rfl⟩, rfl, rfl⟩, ⟨⟨_, rfl⟩, rfl, by decide⟩,
   ⟨_, rfl⟩, by decide, by decide, (fun _ h => by cases h), by decide, by decide⟩
theorem witness_BrightIsUnobservableOutsidePwm :
    readyEmulated.engine.enstate ≠ .pwmEnabled ∧ ∃ t, exec .sendraw readyEmulated = .next t := ⟨by decide, _, rfl⟩
theorem witness_TonormalRunsTheNormalHandshake :
    (0x9ABCDEF0#32).extractLsb' 28 4 = 0x9 ∧ readyDimmed.engine.cfg.oep = true ∧
    readyDelegated.engine.cfg.oep = false := by decide
theorem witness_TospecialRunsTheSpecialHandshake :
    (0xA0000000#32).extractLsb' 28 4 = 0xA ∧ readyDimmed.engine.cfg.oep = true ∧
    readyDelegated.engine.cfg.oep = false := by decide
/-- Each row of the table, and `RESUME`. -/
theorem witness_SwitchTableOfRegistersAndLines :
    let resumed := params { Config.defaultParams with pwmAfterSwitch := .resume } readyDimmed
    (readyEmulated.engine.cfg.oep = true ∧ readyEmulated.engine.enstate = .disabled ∧
      (∃ t, exec .tonormal readyEmulated = .next t) ∧ ∃ t, exec .tospecial readyEmulated = .next t) ∧
    ((enabled readyEmulated).engine.cfg.oep = true ∧ (enabled readyEmulated).engine.enstate = .enabled ∧
      ∃ t, exec .tonormal (enabled readyEmulated) = .next t) ∧
    (readyDimmed.engine.cfg.oep = true ∧ readyDimmed.engine.enstate = .pwmEnabled ∧
      readyDimmed.engine.params.pwmAfterSwitch = .demote ∧ (∃ t, exec .tonormal readyDimmed = .next t) ∧
      ∃ t, exec .tospecial readyDimmed = .next t) ∧
    (resumed.engine.cfg.oep = true ∧ resumed.engine.enstate = .pwmEnabled ∧
      resumed.engine.params.pwmAfterSwitch = .resume ∧ (∃ t, exec .tonormal resumed = .next t) ∧
      ∃ t, exec .tospecial resumed = .next t) :=
  ⟨⟨rfl, rfl, ⟨_, rfl⟩, ⟨_, rfl⟩⟩, ⟨rfl, rfl, ⟨_, rfl⟩⟩, ⟨rfl, rfl, rfl, ⟨_, rfl⟩, ⟨_, rfl⟩⟩,
   rfl, rfl, rfl, ⟨_, rfl⟩, ⟨_, rfl⟩⟩
/-- The all-zero word, and one word of each other reserved opcode. -/
theorem witness_ReservedOpcodesDoNothing :
    readyEmulated.host.rst = false ∧
    [0x00000000#32, 0xB0000000, 0xCFFFFFFF, 0xD0000000, 0xE0000000, 0xFFFFFFFF].all (fun w =>
      ((offering [w] readyEmulated).host.prog[readyEmulated.host.cp]? == some w) &&
      [0x0, 0xB, 0xC, 0xD, 0xE, 0xF].contains (w.extractLsb' 28 4)) = true := by decide
/-- Two bytes into three chips: a position they reach, and one that is shifted. -/
theorem witness_BytesShiftThroughTheChain :
    (boot 3 .emulated true).engine.lines.le = .low ∧
    (1 < (boot 3 .emulated true).chain.chips.length ∧ 1 < [0x12#8, 0x34].length) ∧
    (2 < (boot 3 .emulated true).chain.chips.length ∧ [0x12#8, 0x34].length ≤ 2) := by decide
/-- One chip, two chips, and a third position. -/
theorem witness_FramesReachTheirChips :
    [boot 1 .emulated true, boot 2 .delegated true, boot 3 .delegated false].all (fun s =>
      s.engine.lines.le == .low && s.chain.chips.length == s.engine.cfg.n) = true ∧
    (boot 1 .emulated true).engine.cfg.n = 1 ∧ 2 ≤ (boot 2 .delegated true).engine.cfg.n ∧
    2 < (boot 3 .delegated false).engine.cfg.n := by decide
theorem witness_LatchCopiesByMode :
    readyEmulated.engine.lines.le = .low ∧ readyEmulated.chain.mode = .normal ∧
    (⟨[.unknown], .special⟩ : Chain).mode = .special ∧
    readyEmulated.chain.chips.length = readyEmulated.engine.cfg.n ∧ (∃ t, exec .sendraw readyEmulated = .next t) ∧
    1 < readyEmulated.engine.cfg.n := ⟨rfl, rfl, rfl, rfl, ⟨_, rfl⟩, by decide⟩
theorem witness_HandshakeLosesTheShiftRegisters :
    readyEmulated.engine.cfg.oep = true ∧ 1 < readyEmulated.chain.chips.length := by decide
/-- Both modes, and levels at and next to both ends. -/
theorem witness_ChipsShowWhatTheEnableLineLets :
    (⟨[.unknown], .special⟩ : Chain).chips[0]? = some .unknown ∧ (⟨[.unknown], .special⟩ : Chain).mode = .special ∧
    readyEmulated.chain.chips[1]? = some .unknown ∧ readyEmulated.chain.mode = .normal ∧
    (0 < (1 : Byte).toNat ∧ (1 : Byte).toNat < 255) ∧ (0 < (254 : Byte).toNat ∧ (254 : Byte).toNat < 255) ∧
    (0 : Byte).toNat = 0 ∧ (255 : Byte).toNat = 255 := by decide
theorem witness_EngineNeverReadsTheChain : ∃ t, step readyEmulated = .next t := ⟨_, rfl⟩
theorem witness_EnableLineIsSteadyAtEveryEdge :
    IdleInv readyDimmed ∧ ∃ t, exec (.sendnum 7) readyDimmed = .next t := ⟨witness_idle_dimmed, _, rfl⟩
theorem witness_BusIsHandedOverInOrder :
    IdleInv readyDimmed ∧ ∃ t, exec .tonormal readyDimmed = .next t := ⟨witness_idle_dimmed, _, rfl⟩
theorem witness_ForbiddenLatchFormsAreNeverEmitted :
    IdleInv readyDimmed ∧ (∃ t, exec .sendraw readyDimmed = .next t) ∧ Instr.sendraw ≠ .tospecial :=
  ⟨witness_idle_dimmed, ⟨_, rfl⟩, by decide⟩
theorem witness_NoEnableEventWithoutTheLine :
    IdleInv readyDelegated ∧ readyDelegated.engine.cfg.oep = false ∧ ∃ t, exec .sendraw readyDelegated = .next t :=
  ⟨witness_idle_delegated, rfl, _, rfl⟩
theorem witness_EventCountsFollowTheTable :
    (∃ t, exec .sendraw readyDimmed = .next t) ∧ (boot 254 .delegated true).engine.cfg.n ≤ 254 :=
  ⟨⟨_, rfl⟩, by decide⟩
theorem witness_AssemblerWritesTheWordsOfItsForms : (255 : Nat) ≤ 255 ∧ (65535 : Nat) ≤ 65535 := by decide
theorem witness_PseudoInstructionsExpand :
    (1 ≤ [255].length ∧ [255].length ≤ 254 ∧ (∀ b ∈ [255], b ≤ 255) ∧ [255].length = 1) ∧
    (1 ≤ (List.replicate 254 0).length ∧ (List.replicate 254 0).length ≤ 254 ∧
      ∀ b ∈ List.replicate 254 0, b ≤ 255) :=
  ⟨by decide, by rw [List.length_replicate]; decide, by rw [List.length_replicate],
   fun _ h => (List.mem_replicate.mp h).2 ▸ Nat.zero_le _⟩
/-- Each refusal just outside its range, the warning at 254 and 255, and its absence at 253. -/
theorem witness_AssemblerRefusesByName :
    ((255 : Nat) < 256 ∧ (65535 : Nat) < 65536) ∧ ([] : List Nat).length = 0 ∧ 254 < (List.replicate 255 0).length ∧
    [1, 2, 3].length ≠ 2 ∧ (254 ≤ 254 ∧ 254 ≤ 255 ∧ (255 : Nat) ≤ 255) ∧ (254 ≤ 255 ∧ (0 : Nat) ≤ 255) ∧ 253 ≤ 253 ∧
    (1 ≤ [256].length ∧ [256].length ≤ 254 ∧ (∃ b ∈ [256], 255 < b) ∧ [256].length = 1) ∧
    ((∃ out, assemble 2 .tospecial = .ok out) ∧ AsmStmt.tospecial ≠ .nop) ∧
    (mnemonicText (lineText "BLINK 1".toList) ≠ [] ∧ mnemonicText (lineText "BLINK 1".toList) ∉ mnemonics) ∧
    (readMnemonic (mnemonicText (lineText "BUFWR 1 ; one".toList)) = some .bufwr ∧ operandCount .bufwr = some 2 ∧
      (operandTexts (operandText (lineText "BUFWR 1 ; one".toList))).length ≠ 2) :=
  ⟨by decide, rfl, by rw [List.length_replicate]; decide, by decide, by decide, by decide, by decide,
   ⟨by decide, by decide, ⟨256, by decide, by decide⟩, rfl⟩, ⟨⟨_, rfl⟩, by decide⟩, by decide, by decide⟩

end Sys2Proof.Tests
end

section
/-! The state family: the chain length that reset samples, the reset table, the host's command pointer, and the trace,
which grows by exactly the events of each command. -/

namespace Sys2Proof.Machine

open Sys2Proof.Safety

/-! ### Reset -/

/-- The clamp of R8 as an integer, with no truncation: it is never below 1. -/
theorem clampChainLength_cast (req : Int) : (clampChainLength req : Int) = min (max req 1) 254 :=
  Int.toNat_of_nonneg (by omega)

@[simp] theorem Engine.afterReset_chainLength (i : ConfigInputs) (p : Params) :
    (Engine.afterReset i p).cfg.n = clampChainLength i.chainLengthReq := rfl

@[simp] theorem Engine.afterReset_trace (i : ConfigInputs) (p : Params) : (Engine.afterReset i p).trace = [] := rfl

/-- The data line at reset, by transport (R33). -/
theorem Lines.afterReset_sdi (c : Cfg) :
    (Lines.afterReset c).sdi = if c.xport = .emulated then .driven .low else .x := by
  unfold Lines.afterReset
  cases c.xport <;> rfl

/-- The bus ownership at reset, by transport (R33). -/
theorem Engine.afterReset_busOwn (i : ConfigInputs) (p : Params) :
    (Engine.afterReset i p).busOwn = if i.xport = .delegated then true else false := by
  simp [Engine.afterReset]

/-! ### What every command does to the host side and to the trace -/

/-- A command is executed inside the engine: it leaves the host's program, pointer and inputs alone. -/
theorem exec_host {i : Instr} {s t : State} (h : exec i s = .next t) : t.host = s.host := by
  cases i <;> cases h <;> rfl

@[simp] theorem Engine.driveEnable_trace (v : OeDrive) (st : EnState) (g : Engine) :
    (g.driveEnable v st).trace = g.trace ++ if g.cfg.oep then [.oe v] else [] := by
  cases h : g.cfg.oep
  · simp [Engine.driveEnable_absent v st g h]
  · simp [Engine.driveEnable_emits v st g h]

@[simp] theorem Engine.setBrightness_trace (d : Byte) (g : Engine) :
    (g.setBrightness d).trace = g.trace ++ if g.cfg.oep then [.oe (.pwm d)] else [] := by
  cases h : g.cfg.oep <;> simp [Engine.setBrightness, h]

@[simp] theorem Engine.shiftAndLatch_trace (bytes : List Byte) (g : Engine) :
    (g.shiftAndLatch bytes).trace = g.trace ++ frameEvents g bytes := by
  rw [Engine.shiftAndLatch_emits, Engine.emitAll_trace]

@[simp] theorem Engine.latchPulse_trace (g : Engine) : g.latchPulse.trace = g.trace ++ latchEvents := by
  rw [Engine.latchPulse_emits, Engine.emitAll_trace]

@[simp] theorem Engine.modeSwitch_trace (target : ChipMode) (g : Engine) :
    (g.modeSwitch target).trace = g.trace ++ switchEvents target g := by
  rw [Engine.modeSwitch_emits, Engine.emitAll_trace]

/-- Each command appends exactly its own events to the trace. -/
theorem exec_trace {i : Instr} {s t : State} (h : exec i s = .next t) :
    t.engine.trace = s.engine.trace ++ commandEvents s.engine i := by
  cases i <;> cases h
  case bufwr idx byte => simp [commandEvents]
  case sendraw => simp [commandEvents, rawFrame, frameBytes_eq]
  case sendchr => simp [commandEvents, charFrame, frameBytes_eq]
  case sendnum num => simp [commandEvents, numBytes_eq]
  case latch => exact Engine.latchPulse_trace _
  case enable => exact Engine.driveEnable_trace ..
  case disable => exact Engine.driveEnable_trace ..
  case bright level => exact Engine.setBrightness_trace ..
  case tonormal => exact Engine.modeSwitch_trace ..
  case tospecial => exact Engine.modeSwitch_trace ..
  all_goals exact (List.append_nil _).symm

/-! ### What a step does to the host side -/

/-- The pointer moves on only after a command that has completed. -/
theorem advanceOutcome_eq_next {o : Host.Outcome State Fault Refusal} {t : State} :
    advanceOutcome o = .next t ↔ ∃ u, o = .next u ∧ t = u.advance := by
  cases o <;> simp [advanceOutcome, eq_comm]

/-- A step that takes a word is the decoded command, completed, and then the pointer moved on (R31, R56). -/
theorem exec_of_step_word {s t : State} {w : Word} (hrst : s.host.rst = false)
    (hw : s.host.prog[s.host.cp]? = some w) (h : step s = .next t) :
    ∃ u, exec (decodeWord w) s = .next u ∧ t = u.advance := by
  rwa [step_word s w hrst hw, advanceOutcome_eq_next] at h

/-- A step that takes a word moves the host's pointer by one, whatever the command, and changes nothing else there. -/
theorem step_word_host {s t : State} {w : Word} (hrst : s.host.rst = false)
    (hw : s.host.prog[s.host.cp]? = some w) (h : step s = .next t) :
    t.host = { s.host with cp := s.host.cp + 1 } := by
  obtain ⟨u, hexec, rfl⟩ := exec_of_step_word hrst hw h
  rw [State.advance_host, exec_host hexec]

end Sys2Proof.Machine

namespace Sys2Proof.Proofs

open Sys2Proof.Machine

/-- Settles O1: in each of the three ranges the clamp has one value. -/
theorem chainLengthIsClampedAtReset : Obligations.ChainLengthIsClampedAtReset := by
  intro i p
  have hclamp := clampChainLength_cast i.chainLengthReq
  rw [Engine.afterReset_chainLength]
  refine ⟨fun hlow => ?_, fun hhigh => ?_, fun hlow hhigh => ?_⟩ <;> omega

/-- Settles O2: row by row of R33. -/
theorem powerOnStateIsTheResetTable : Obligations.PowerOnStateIsTheResetTable := by
  intro i p
  exact
    ⟨clampChainLength_cast i.chainLengthReq, rfl, rfl, rfl, rfl, fun k _ => Memory.read_nil k,
      Lines.afterReset_sdi (.sample i), rfl, rfl, rfl, Engine.afterReset_busOwn i p, rfl, rfl⟩

/-- Settles O16: the pointer is below `M` exactly when the host offers a word. -/
theorem commandPointerMovesByOne : Obligations.CommandPointerMovesByOne := by
  refine ⟨fun i p => rfl, fun s t hrst hstep => ⟨fun hmore => ?_, fun hend => ?_⟩⟩
  · exact step_word_host hrst (List.getElem?_eq_getElem hmore) hstep
  · rw [step_none s hrst (List.getElem?_eq_none hend)] at hstep
    cases hstep
    rfl

/-- Settles O18: each command's trace is the trace before with the command's events behind it. -/
theorem traceOnlyGrows : Obligations.TraceOnlyGrows := by
  exact ⟨Engine.afterReset_trace, Engine.emit_trace,
    fun i s t h => ⟨Safety.commandEvents s.engine i, (exec_trace h).symm⟩⟩

end Sys2Proof.Proofs
end

section
/-! The memory family: the segment map (R38), one lemma per branch. -/

namespace Sys2Proof.Machine

/-- A printable code reads the segment ROM at its distance from code 32. -/
theorem segmap_of_printable {c : Byte} (h : 32 ≤ c.toNat ∧ c.toNat ≤ 127) :
    segmap c = Config.seg ⟨c.toNat - 32, by omega⟩ :=
  dif_pos h

/-- A code below 32 or above 127 shows no segment. -/
theorem segmap_of_not_printable {c : Byte} (h : c.toNat < 32 ∨ 127 < c.toNat) : segmap c = 0x00 :=
  dif_neg (by omega)

end Sys2Proof.Machine

namespace Sys2Proof.Proofs

open Sys2Proof.Machine

/-- Settles O25: the two branches of the map, and the first branch at both ends of its range. -/
theorem segmapFollowsTheRule : Obligations.SegmapFollowsTheRule := by
  have hfirst : segmap 32 = Config.seg 0 := segmap_of_printable (c := 32) (by decide)
  have hlast : segmap 127 = Config.seg 95 := segmap_of_printable (c := 127) (by decide)
  exact ⟨fun _ => segmap_of_printable, fun _ => segmap_of_not_printable, hfirst, hlast⟩

end Sys2Proof.Proofs
end

section
/-! The encoding family: the opcode map of R58 as a table, the fields of an encoded word, and the bits a command reads
(R57 to R60). -/

namespace Sys2Proof.Machine

open Sys2Proof.Safety

/-! ### The opcode map -/

/-- The opcode map of R58 in the order of the opcodes, with the operands read from the word `w`. -/
def opcodeMap (w : Word) : List Instr :=
  [.nop, .bufwr (idxField w) (byteField w), .sendraw, .sendchr, .sendnum (numField w), .latch, .enable, .disable,
    .bright (byteField w), .tonormal, .tospecial, .reservedB, .reservedC, .reservedD, .reservedE, .reservedF]

/-- The opcode field, put together from the four bits the decoder looks at. -/
theorem opcode_eq_bits (w : Word) :
    w.extractLsb' 28 4 = BitVec.ofBoolListBE [w.getLsbD 31, w.getLsbD 30, w.getLsbD 29, w.getLsbD 28] := by
  ext k hk
  rw [BitVec.getElem_extractLsb']
  refine Eq.trans ?_ (BitVec.getElem_ofBoolListBE hk).symm
  match k with
  | 0 | 1 | 2 | 3 => rfl

/-- The decoder answers the row of the opcode map that the opcode names. -/
theorem opcodeMap_getElem (w : Word) : (opcodeMap w)[(w.extractLsb' 28 4).toNat]? = some (decodeWord w) := by
  rw [opcode_eq_bits]
  unfold decodeWord
  split <;> rename_i h31 h30 h29 h28 <;> rw [h31, h30, h29, h28] <;> rfl

/-- How each opcode decodes: give the word's opcode, and `rfl` for the row of the map. -/
theorem decodeWord_of_opcode {w : Word} {k : BitVec 4} {i : Instr} (hopc : w.extractLsb' 28 4 = k)
    (hrow : (opcodeMap w)[k.toNat]? = some i) : decodeWord w = i := by
  rw [← hopc, opcodeMap_getElem] at hrow
  exact Option.some.inj hrow

/-- The match of R58 by the opcode's mask fixes the opcode field. -/
theorem opcode_of_mask {w v : Word} (h : w &&& 0xF0000000 = v) : w.extractLsb' 28 4 = v.extractLsb' 28 4 := by
  rw [← h, BitVec.extractLsb'_and]
  exact BitVec.and_allOnes.symm

/-- The opcodes stand in the map in their order. -/
theorem opcodeMap_opc (w : Word) (k : BitVec 4) : ((opcodeMap w)[k.toNat]?).map Instr.opc = some k := by
  have hopcs : (opcodeMap w).map Instr.opc =
      [0x0, 0x1, 0x2, 0x3, 0x4, 0x5, 0x6, 0x7, 0x8, 0x9, 0xA, 0xB, 0xC, 0xD, 0xE, 0xF] := rfl
  rw [← List.getElem?_map, hopcs]
  revert k
  decide

/-- The opcode of a decoded command is the word's opcode field. -/
theorem decodeWord_opc (w : Word) : (decodeWord w).opc = w.extractLsb' 28 4 := by
  have hrow := opcodeMap_opc w (w.extractLsb' 28 4)
  rw [opcodeMap_getElem] at hrow
  exact Option.some.inj hrow

/-! ### The fields of an encoded word -/

theorem encode_opcode (i : Instr) : (encode i).extractLsb' 28 4 = i.opc :=
  (Laws.EncodedOpcode.fields _ _ _).1

theorem idxField_encode (i : Instr) : idxField (encode i) = i.idx := by
  ext k hk
  simp [idxField, encode, show 16 + k < 32 by omega, show 16 + k < 28 by omega, BitVec.getLsbD_eq_getElem hk]

theorem numField_encode (i : Instr) : numField (encode i) = i.data := by
  ext k hk
  simp [numField, encode, hk, show k < 32 by omega, show k < 28 by omega]

/-- The byte operand is the low half of the number operand (R57). -/
theorem byteField_eq (w : Word) : byteField w = (numField w).setWidth 8 :=
  (BitVec.setWidth_extractLsb'_of_le (by decide)).symm

theorem byteField_encode (i : Instr) : byteField (encode i) = i.data.setWidth 8 := by
  rw [byteField_eq, numField_encode]

/-- The decoder is a left inverse of the encoder. -/
theorem decodeWord_encode (i : Instr) : decodeWord (encode i) = i := by
  apply decodeWord_of_opcode (encode_opcode i)
  cases i
  case bufwr idx byte => simp [opcodeMap, idxField_encode, byteField_encode, Instr.opc, Instr.idx, Instr.data]
  case sendnum num => simp [opcodeMap, numField_encode, Instr.opc, Instr.data]
  case bright level => simp [opcodeMap, byteField_encode, Instr.opc, Instr.data]
  all_goals rfl

/-! ### The bits a command reads -/

/-- A field, put back in its place, is the word under the field's mask. -/
theorem field_in_place (w : Word) (start len : Nat) :
    (w.extractLsb' start len).setWidth 32 <<< start = w &&& (BitVec.allOnes len).setWidth 32 <<< start := by
  ext k hk
  by_cases hlow : k < start
  · simp [hlow]
  · simp [hlow, show start + (k - start) = k by omega, Bool.and_comm, hk]

theorem opc_in_place (w : Word) : (w.extractLsb' 28 4).setWidth 32 <<< 28 = w &&& 0xF0000000 :=
  field_in_place w 28 4

theorem idxField_in_place (w : Word) : (idxField w).setWidth 32 <<< 16 = w &&& 0x00FF0000 :=
  field_in_place w 16 8

theorem numField_in_place (w : Word) : (numField w).setWidth 32 = w &&& 0x0000FFFF := by
  have h := field_in_place w 0 16
  rwa [BitVec.shiftLeft_zero, BitVec.shiftLeft_zero] at h

theorem byteField_in_place (w : Word) : ((byteField w).setWidth 16).setWidth 32 = w &&& 0x000000FF := by
  have h := field_in_place w 0 8
  rw [BitVec.shiftLeft_zero, BitVec.shiftLeft_zero] at h
  rwa [BitVec.setWidth_setWidth (by decide)]

theorem no_idx_in_place {w : Word} {i : Instr} (h : i.idx = 0) : i.idx.setWidth 32 <<< 16 = w &&& 0 := by
  simp [h]

theorem no_data_in_place {w : Word} {i : Instr} (h : i.data = 0) : i.data.setWidth 32 = w &&& 0 := by
  simp [h]

/-- A command whose fields are the word's under three masks is encoded as the word under the three masks together. -/
theorem encode_eq_and {w mIdx mData m : Word} {i : Instr} (hm : m = 0xF0000000 ||| mIdx ||| mData)
    (hopc : i.opc = w.extractLsb' 28 4) (hidx : i.idx.setWidth 32 <<< 16 = w &&& mIdx)
    (hdata : i.data.setWidth 32 = w &&& mData) : encode i = w &&& m := by
  rw [encode, hopc, opc_in_place, hidx, hdata, hm, BitVec.and_or_distrib_left, BitVec.and_or_distrib_left]

/-- Decoding a word and encoding it again clears the bits its command ignores, and nothing else. -/
theorem encode_decodeWord (w : Word) : encode (decodeWord w) = w &&& readMask (decodeWord w) := by
  have hrow : decodeWord w ∈ opcodeMap w := List.mem_of_getElem? (opcodeMap_getElem w)
  have hopc := decodeWord_opc w
  cases hi : decodeWord w <;> rw [hi] at hopc hrow
  case bufwr idx byte =>
    obtain ⟨rfl, rfl⟩ : idx = idxField w ∧ byte = byteField w := by simpa [opcodeMap] using hrow
    exact encode_eq_and (m := 0xF0FF00FF) (by decide) hopc (idxField_in_place w) (byteField_in_place w)
  case sendnum num =>
    obtain rfl : num = numField w := by simpa [opcodeMap] using hrow
    exact encode_eq_and (m := 0xF000FFFF) (by decide) hopc (no_idx_in_place rfl) (numField_in_place w)
  case bright level =>
    obtain rfl : level = byteField w := by simpa [opcodeMap] using hrow
    exact encode_eq_and (m := 0xF00000FF) (by decide) hopc (no_idx_in_place rfl) (byteField_in_place w)
  all_goals exact encode_eq_and (m := 0xF0000000) (by decide) hopc (no_idx_in_place rfl) (no_data_in_place rfl)

/-- A command is decoded from the bits it reads alone (R60). -/
theorem decodeWord_and_readMask (w : Word) : decodeWord (w &&& readMask (decodeWord w)) = decodeWord w := by
  rw [← encode_decodeWord, decodeWord_encode]

/-- Which bits a command reads is fixed by its opcode. -/
theorem readMask_decodeWord_congr {w w' : Word} (h : w.extractLsb' 28 4 = w'.extractLsb' 28 4) :
    readMask (decodeWord w) = readMask (decodeWord w') := by
  have hmasks : (opcodeMap w).map readMask = (opcodeMap w').map readMask := rfl
  have hrow := congrArg (·[(w.extractLsb' 28 4).toNat]?) hmasks
  simp only [List.getElem?_map] at hrow
  rw [opcodeMap_getElem, h, opcodeMap_getElem] at hrow
  exact Option.some.inj hrow

/-- Every command reads the whole opcode. -/
theorem opcode_and_readMask (w : Word) (i : Instr) : (w &&& readMask i).extractLsb' 28 4 = w.extractLsb' 28 4 := by
  have hmask : (readMask i).extractLsb' 28 4 = BitVec.allOnes 4 := by
    cases i <;> simp only [readMask] <;> decide
  rw [BitVec.extractLsb'_and, hmask, BitVec.and_allOnes]

/-! ### Commands that do nothing -/

/-- A step at a word whose command does nothing moves the host's pointer on, and changes nothing else. -/
theorem step_word_idle {s : State} {w : Word} (hrst : s.host.rst = false) (hw : s.host.prog[s.host.cp]? = some w)
    (hexec : exec (decodeWord w) s = .next s) : step s = .next s.advance := by
  rw [step_word s w hrst hw, hexec, advanceOutcome_next]

end Sys2Proof.Machine

namespace Sys2Proof.Proofs

open Sys2Proof.Machine Sys2Proof.Safety

/-- Settles O11: the mask fixes the opcode, and the opcode names the row of the map. -/
theorem decoderFollowsTheOpcodeMap : Obligations.DecoderFollowsTheOpcodeMap := by
  intro w
  refine ⟨?_, ?_, ?_, ?_, ?_, ?_, ?_, ?_, ?_, ?_, ?_, ?_, ?_, ?_, ?_, ?_⟩ <;>
    exact fun h => decodeWord_of_opcode (opcode_of_mask h) rfl

/-- Settles O12: the words share their opcode, so one mask is right for both, and under it they are the same word. -/
theorem ignoredFieldsDoNotMatter : Obligations.IgnoredFieldsDoNotMatter := by
  refine ⟨fun w w' h => ?_, encode_decodeWord⟩
  have hopc : w'.extractLsb' 28 4 = w.extractLsb' 28 4 := by
    rw [← opcode_and_readMask w', ← h, opcode_and_readMask]
  calc decodeWord w'
      = decodeWord (w' &&& readMask (decodeWord w')) := (decodeWord_and_readMask w').symm
    _ = decodeWord (w' &&& readMask (decodeWord w)) := by rw [readMask_decodeWord_congr hopc]
    _ = decodeWord (w &&& readMask (decodeWord w)) := by rw [h]
    _ = decodeWord w := decodeWord_and_readMask w

/-- Settles O46: each of the six opcodes decodes to a command that answers the state it is given. -/
theorem reservedOpcodesDoNothing : Obligations.ReservedOpcodesDoNothing := by
  refine ⟨fun s => ⟨rfl, rfl, rfl, rfl, rfl, rfl⟩, fun s w hrst hw hopc => step_word_idle hrst hw ?_⟩
  rcases hopc with h | h | h | h | h | h <;> rw [decodeWord_of_opcode h rfl] <;> rfl

end Sys2Proof.Proofs
end

section
/-! The transport family: each primitive appends its own events and keeps the bus ownership, and the lines stand where
those events leave them (R67 to R71). -/

namespace Sys2Proof.Machine

open Sys2Proof.Safety

/-! ### Where the events of a primitive leave the lines -/

@[simp] theorem Lines.afterAll_latchEvents (l : Lines) : l.afterAll latchEvents = { l with le := .low } := rfl

@[simp] theorem Lines.afterAll_bitEvents (l : Lines) (bit : Bool) :
    l.afterAll (bitEvents bit) =
      { l with sdi := .driven (if bit then .high else .low), clk := .driven .low } := rfl

/-- Each bit overwrites what the bit before it left on the two lines, so the last one, bit 7, stays. -/
@[simp] theorem Lines.afterAll_emulatedEvents (l : Lines) (b : Byte) :
    l.afterAll (emulatedEvents b) =
      { l with sdi := .driven (if b[7] then .high else .low), clk := .driven .low } := by
  simp only [emulatedEvents, Lines.afterAll_append, Lines.afterAll_bitEvents]

/-- The end of the transaction releases the data line (R28). -/
@[simp] theorem Lines.afterAll_delegatedEvents (l : Lines) (b : Byte) :
    l.afterAll (delegatedEvents b) = { l with sdi := .x, clk := .driven .low } := by
  simp [delegatedEvents]

/-! ### The primitives, with the bus ownership kept -/

theorem Engine.latchPulse_eq_emitted (g : Engine) : g.latchPulse = emitted g latchEvents := by
  rw [Engine.latchPulse_emits, Engine.emitAll_eq_emitted _ _ rfl]

theorem Engine.xferEmulated_eq_emitted (b : Byte) (g : Engine) :
    g.xferEmulated b = emitted g (emulatedEvents b) := by
  rw [Engine.xferEmulated_emits, Engine.emitAll_eq_emitted _ _ (busOwn_emulatedEvents ..)]

theorem Engine.xferDelegated_eq_emitted (b : Byte) (g : Engine) :
    g.xferDelegated b = emitted g (delegatedEvents b) := by
  have hown : (delegatedEvents b).foldl busOwnAfter g.busOwn = g.busOwn :=
    busOwn_transferEvents g.busOwn .delegated b
  rw [Engine.xferDelegated_emits, Engine.emitAll_eq_emitted _ _ hown]

theorem Engine.sendByte_eq_emitted (b : Byte) (g : Engine) : g.sendByte b = emitted g (byteEvents g b) := by
  rw [Engine.sendByte_emits, Engine.emitAll_eq_emitted _ _ (busOwn_byteEvents ..)]

/-! ### The events of one byte, by the state of the enable line -/

/-- While PWM runs, the transfer stands between a suspend event and a restore event. -/
theorem byteEvents_of_pwm {g : Engine} (h : g.enstate = .pwmEnabled) (b : Byte) :
    byteEvents g b =
      [.oe (.ofLevel g.params.suspendLevel)] ++ transferEvents g.cfg.xport b ++ [.oe (.pwm g.bright)] :=
  if_pos h

/-- A steady enable line is left alone. -/
theorem byteEvents_of_not_pwm {g : Engine} (h : g.enstate ≠ .pwmEnabled) (b : Byte) :
    byteEvents g b = transferEvents g.cfg.xport b :=
  if_neg h

end Sys2Proof.Machine

namespace Sys2Proof.Proofs

open Sys2Proof.Machine Sys2Proof.Safety

/-- Settles O26: the engine after the two latch events, and where they leave the lines. -/
theorem latchPulseRaisesAndLowersTheLatch : Obligations.LatchPulseRaisesAndLowersTheLatch := by
  intro g
  rw [Engine.latchPulse_eq_emitted, emitted, Lines.afterAll_latchEvents, latchEvents]

/-- Settles O27: the engine after the events of the byte, and where they leave the lines. -/
theorem emulatedTransferShiftsEightBits : Obligations.EmulatedTransferShiftsEightBits := by
  intro b g
  rw [Engine.xferEmulated_eq_emitted, emitted, Lines.afterAll_emulatedEvents]

/-- Settles O28: the engine after the events of the transaction, and where they leave the lines. -/
theorem delegatedTransferIsOneTransaction : Obligations.DelegatedTransferIsOneTransaction := by
  intro b g
  rw [Engine.xferDelegated_eq_emitted, emitted, Lines.afterAll_delegatedEvents, delegatedEvents]

/-- Settles O29: `SEND_BYTE` emits the events of the byte, and these have one form for each case of `ENSTATE`. -/
theorem sendByteSuspendsAndRestoresPwm : Obligations.SendByteSuspendsAndRestoresPwm := by
  refine fun b g => ⟨fun hpwm => ?_, fun hsteady => ?_⟩
  · rw [Engine.sendByte_eq_emitted, byteEvents_of_pwm hpwm]
  · rw [Engine.sendByte_eq_emitted, byteEvents_of_not_pwm hsteady]

end Sys2Proof.Proofs
end

section
/-! The data-shift family: what each of the five commands of 41_data_shift.md answers, as one equation per command
(R77 to R81). -/

namespace Sys2Proof.Machine

open Sys2Proof.Safety

/-! ### The write of `BUFWR` -/

/-- An index of the frame buffer names the entry that is written (R35, R77). -/
theorem Engine.writeFb_of_entry {idx : BitVec 8} (h : idx.toNat ≤ 253) (byte : Byte) (g : Engine) :
    g.writeFb idx byte = { g with fb := g.fb.write idx.toNat byte } :=
  if_pos h

/-- Index 254 or 255 names no entry (R36, R77). -/
theorem Engine.writeFb_of_no_entry {idx : BitVec 8} (h : 254 ≤ idx.toNat) (byte : Byte) (g : Engine) :
    g.writeFb idx byte = g :=
  if_neg (by omega)

theorem exec_bufwr (idx : BitVec 8) (byte : Byte) (s : State) :
    exec (.bufwr idx byte) s = .next { s with engine := s.engine.writeFb idx byte } := rfl

/-! ### The bytes of a number, by the length of the chain -/

@[simp] theorem numFrame_one (num : BitVec 16) : numFrame 1 num = [num.extractLsb' 0 8] := rfl

theorem numFrame_of_two_le {n : Nat} (h : 2 ≤ n) (num : BitVec 16) :
    numFrame n num = [num.extractLsb' 0 8, num.extractLsb' 8 8] := by
  obtain ⟨k, rfl⟩ := Nat.exists_eq_add_of_le' h
  rfl

/-! ### The frame commands and `LATCH` -/

theorem exec_sendraw (s : State) :
    exec .sendraw s = .next (sent s (frameEvents s.engine (rawFrame s.engine))) := by
  calc exec .sendraw s
      = .next (s.driving fun g => g.shiftAndLatch (frameBytes g.fb.read g.cfg.n)) := rfl
    _ = .next (sent s (frameEvents s.engine (rawFrame s.engine))) := by
      rw [State.driving_frame, frameBytes_eq, rawFrame]

theorem exec_sendchr (s : State) :
    exec .sendchr s = .next (sent s (frameEvents s.engine (charFrame s.engine))) := by
  calc exec .sendchr s
      = .next (s.driving fun g => g.shiftAndLatch (frameBytes (fun i => segmap (g.fb.read i)) g.cfg.n)) := rfl
    _ = .next (sent s (frameEvents s.engine (charFrame s.engine))) := by
      rw [State.driving_frame, frameBytes_eq, charFrame]

theorem exec_sendnum (num : BitVec 16) (s : State) :
    exec (.sendnum num) s = .next (sent s (frameEvents s.engine (numFrame s.engine.cfg.n num))) := by
  calc exec (.sendnum num) s
      = .next (s.driving fun g => g.shiftAndLatch (numBytes num g.cfg.n)) := rfl
    _ = .next (sent s (frameEvents s.engine (numFrame s.engine.cfg.n num))) := by
      rw [State.driving_frame, numBytes_eq]

/-- A latch pulse alone is the frame of no bytes. -/
theorem exec_latch (s : State) : exec .latch s = .next (sent s latchEvents) := by
  calc exec .latch s
      = .next (s.driving fun g => g.shiftAndLatch []) := rfl
    _ = .next (sent s (frameEvents s.engine [])) := by rw [State.driving_frame s fun _ => []]

/-- From a low latch line a latch pulse latches every chip once: `LE(H)` arms the pulse, `LE(L)` copies (R105). -/
theorem Chain.observeAll_latchEvents (c : Chain) {l : Lines} (h : l.le = .low) :
    c.observeAll l latchEvents = c.latched := by
  have harm : c.observe l (.le .high) = c := by simp [Chain.observe, h]
  calc c.observeAll l latchEvents
      = (c.observe l (.le .high)).observe (l.after (.le .high)) (.le .low) := rfl
    _ = c.observe (l.after (.le .high)) (.le .low) := by rw [harm]
    _ = c.latched := rfl

end Sys2Proof.Machine

namespace Sys2Proof.Proofs

open Sys2Proof.Machine Sys2Proof.Safety

/-- Settles O20: on either side of the bound between indices 253 and 254, the write of `BUFWR` is a write of the memory
or nothing. -/
theorem bufwrWritesOneEntry : Obligations.BufwrWritesOneEntry := by
  refine ⟨fun w hopc => decodeWord_of_opcode hopc rfl, fun idx byte s => ⟨fun hentry => ?_, fun hnone => ?_⟩⟩
  · refine ⟨s.engine.fb.write idx.toNat byte, ?_, Memory.read_write_same .., fun a ha => ?_⟩
    · rw [exec_bufwr, Engine.writeFb_of_entry hentry]
    · exact Memory.read_write_other _ _ _ _ ha
  · rw [exec_bufwr, Engine.writeFb_of_no_entry hnone]

/-- Settles O31: the machine has sent the frame of the buffer's bytes. -/
theorem sendrawSendsTheFrameLastChipFirst : Obligations.SendrawSendsTheFrameLastChipFirst :=
  ⟨fun _ hopc => decodeWord_of_opcode hopc rfl, exec_sendraw⟩

/-- Settles O32: the machine has sent the frame of the mapped bytes. -/
theorem sendchrSendsTheMappedFrame : Obligations.SendchrSendsTheMappedFrame :=
  ⟨fun _ hopc => decodeWord_of_opcode hopc rfl, exec_sendchr⟩

/-- Settles O33: the machine has sent the frame of the number, which has one byte or two by the length of the chain. -/
theorem sendnumSendsAtMostTwoBytes : Obligations.SendnumSendsAtMostTwoBytes := by
  refine ⟨fun w hopc => decodeWord_of_opcode hopc rfl, fun num s => ⟨fun hone => ?_, fun htwo => ?_⟩⟩
  · rw [exec_sendnum, hone, numFrame_one, frameEvents, List.flatMap_singleton, latchEvents]
  · rw [exec_sendnum, numFrame_of_two_le htwo, frameEvents, List.flatMap_cons, List.flatMap_singleton, latchEvents]

/-- Settles O34: the machine has sent one latch pulse, which lowers the latch line and, from a low line, latches the
chain. -/
theorem latchEmitsOneLatchPulse : Obligations.LatchEmitsOneLatchPulse := by
  refine ⟨fun w hopc => decodeWord_of_opcode hopc rfl, fun s => ?_, fun c l => c.observeAll_latchEvents⟩
  rw [exec_latch, sent, emitted, Lines.afterAll_latchEvents, latchEvents]

end Sys2Proof.Proofs
end

section
/-! The enable family: what the three commands of the enable controller answer with the enable line and without it, and
the two mode switches without it, as one equation per command (R85 to R88, R98). -/

namespace Sys2Proof.Machine

/-! ### The engine's part -/

/-- The enable controller with the line, register by register (R84). -/
theorem Engine.driveEnable_of_line {g : Engine} (h : g.cfg.oep = true) (v : OeDrive) (st : EnState) :
    g.driveEnable v st =
      { g with
        trace := g.trace ++ [.oe v]
        lines := { g.lines with oe := some v }
        enstate := st } :=
  Engine.driveEnable_emits v st g h

/-- `BRIGHT` with the line is the enable controller and the remembered level (R87). -/
theorem Engine.setBrightness_of_line {g : Engine} (h : g.cfg.oep = true) (d : Byte) :
    g.setBrightness d = { g.driveEnable (.pwm d) .pwmEnabled with bright := d } :=
  if_pos h

theorem Engine.setBrightness_absent {g : Engine} (h : g.cfg.oep = false) (d : Byte) : g.setBrightness d = g := by
  simp [Engine.setBrightness, h]

/-- Without the line there is no handshake (R98). -/
theorem Engine.modeSwitch_absent {g : Engine} (h : g.cfg.oep = false) (target : ChipMode) :
    g.modeSwitch target = g := by
  simp [Engine.modeSwitch, h]

/-! ### From the engine to the machine -/

/-- A command whose one event drives the enable line leaves the chain alone: no chip register follows that line
(R103). -/
theorem State.driving_oe {s : State} {f : Engine → Engine} {v : OeDrive}
    (h : (f s.engine).trace = s.engine.trace ++ [.oe v]) : s.driving f = { s with engine := f s.engine } := by
  rw [State.driving_trace s f _ h, Chain.observeAll_cons, Chain.observe_oe, Chain.observeAll_nil]

/-- A command that leaves the engine as it is leaves the machine as it is: the chain sees no event. -/
theorem State.driving_of_unchanged {s : State} {f : Engine → Engine} (h : f s.engine = s.engine) :
    s.driving f = s := by
  rw [State.driving_emits s f [] (by rw [h, Engine.emitAll_nil]), Engine.emitAll_nil, Chain.observeAll_nil]

/-- A mode switch without the line leaves the machine as it is (R98). -/
theorem State.handshaking_absent {s : State} (h : s.engine.cfg.oep = false) (target : ChipMode) :
    s.handshaking target (Engine.modeSwitch target) = s := by
  simp [State.handshaking, h, Engine.modeSwitch_absent h]

/-! ### The commands with the line -/

section
variable {s : State} (h : s.engine.cfg.oep = true)
include h

/-- The enable controller in the machine: the line, its event and `ENSTATE`, and nothing else. -/
theorem State.driving_driveEnable (v : OeDrive) (st : EnState) :
    s.driving (Engine.driveEnable v st) =
      { s with engine :=
        { s.engine with
          trace := s.engine.trace ++ [.oe v]
          lines := { s.engine.lines with oe := some v }
          enstate := st } } := by
  have htrace : (s.engine.driveEnable v st).trace = s.engine.trace ++ [.oe v] := by
    rw [Engine.driveEnable_trace, if_pos h]
  rw [State.driving_oe htrace, Engine.driveEnable_of_line h]

theorem exec_enable_of_line :
    exec .enable s = .next
      { s with engine :=
        { s.engine with
          trace := s.engine.trace ++ [.oe .low]
          lines := { s.engine.lines with oe := some .low }
          enstate := .enabled } } :=
  congrArg Host.Outcome.next (State.driving_driveEnable h .low .enabled)

theorem exec_disable_of_line :
    exec .disable s = .next
      { s with engine :=
        { s.engine with
          trace := s.engine.trace ++ [.oe .high]
          lines := { s.engine.lines with oe := some .high }
          enstate := .disabled } } :=
  congrArg Host.Outcome.next (State.driving_driveEnable h .high .disabled)

theorem exec_bright_of_line (d : Byte) :
    exec (.bright d) s = .next
      { s with engine :=
        { s.engine with
          trace := s.engine.trace ++ [.oe (.pwm d)]
          lines := { s.engine.lines with oe := some (.pwm d) }
          bright := d
          enstate := .pwmEnabled } } := by
  have htrace : (s.engine.setBrightness d).trace = s.engine.trace ++ [.oe (.pwm d)] := by
    rw [Engine.setBrightness_trace, if_pos h]
  calc exec (.bright d) s
      = .next (s.driving (Engine.setBrightness d)) := rfl
    _ = .next { s with engine := s.engine.setBrightness d } := by rw [State.driving_oe htrace]
    _ = _ := by rw [Engine.setBrightness_of_line h, Engine.driveEnable_of_line h]

end

/-! ### The commands without the line -/

section
variable {s : State} (h : s.engine.cfg.oep = false)
include h

theorem exec_enable_absent : exec .enable s = .next s :=
  congrArg Host.Outcome.next (State.driving_of_unchanged (Engine.driveEnable_absent _ _ _ h))

theorem exec_disable_absent : exec .disable s = .next s :=
  congrArg Host.Outcome.next (State.driving_of_unchanged (Engine.driveEnable_absent _ _ _ h))

theorem exec_bright_absent (d : Byte) : exec (.bright d) s = .next s :=
  congrArg Host.Outcome.next (State.driving_of_unchanged (Engine.setBrightness_absent h d))

theorem exec_tonormal_absent : exec .tonormal s = .next s :=
  congrArg Host.Outcome.next (State.handshaking_absent h .normal)

theorem exec_tospecial_absent : exec .tospecial s = .next s :=
  congrArg Host.Outcome.next (State.handshaking_absent h .special)

end

end Sys2Proof.Machine

namespace Sys2Proof.Proofs

open Sys2Proof.Machine

/-- Settles O37: the row of opcode `0x6`, and `ENABLE` with the line and without it. -/
theorem enableDrivesTheLineLow : Obligations.EnableDrivesTheLineLow :=
  ⟨fun _ hopc => decodeWord_of_opcode hopc rfl, fun _ => ⟨exec_enable_of_line, exec_enable_absent⟩⟩

/-- Settles O38: the row of opcode `0x7`, and `DISABLE` with the line and without it. -/
theorem disableDrivesTheLineHigh : Obligations.DisableDrivesTheLineHigh :=
  ⟨fun _ hopc => decodeWord_of_opcode hopc rfl, fun _ => ⟨exec_disable_of_line, exec_disable_absent⟩⟩

/-- Settles O39: the row of opcode `0x8`, and `BRIGHT` at any level with the line and without it. -/
theorem brightStartsPwmAtTheLevel : Obligations.BrightStartsPwmAtTheLevel :=
  ⟨fun _ hopc => decodeWord_of_opcode hopc rfl,
    fun d _ => ⟨fun hline => exec_bright_of_line hline d, fun habsent => exec_bright_absent habsent d⟩⟩

/-- Settles O40: command by command; no equation asks for a transport. -/
theorem fiveCommandsAreNoOpsWithoutTheEnableLine : Obligations.FiveCommandsAreNoOpsWithoutTheEnableLine :=
  fun _ d habsent =>
    ⟨exec_enable_absent habsent, exec_disable_absent habsent, exec_bright_absent habsent d,
      exec_tonormal_absent habsent, exec_tospecial_absent habsent⟩

end Sys2Proof.Proofs
end

section
/-! The mode-switch family: the handshake of `MODE_SWITCH` with the enable line, said once for both targets (R90), then
its events for each target written out (R92 to R95). Without the line there is none (R98, in the enable family). -/

namespace Sys2Proof.Machine

open Sys2Proof.Safety

/-! ### The handshake, for either target -/

/-- The engine after a handshake: its events, `ENSTATE` as step 1 leaves it, and the bus as step 8 leaves it. -/
theorem Engine.modeSwitch_of_line {g : Engine} (h : g.cfg.oep = true) (target : ChipMode) :
    g.modeSwitch target =
      { emitted g (switchEvents target g) with
        enstate := enstateAfterSwitch g
        busOwn := g.busOwn || decide (g.cfg.xport = .delegated) } := by
  have hown : (switchEvents target g).foldl busOwnAfter g.busOwn =
      (g.busOwn || decide (g.cfg.xport = .delegated)) := by
    rw [busOwn_switchEvents, h, Bool.true_and]
  rw [Engine.modeSwitch_emits, Engine.emitAll, hown, emitted]

/-- The machine after a handshake: the chain takes it as one unit (R107). -/
theorem State.handshaking_of_line {s : State} (h : s.engine.cfg.oep = true) (target : ChipMode) :
    s.handshaking target (Engine.modeSwitch target) =
      { s with
        engine :=
          { emitted s.engine (switchEvents target s.engine) with
            enstate := enstateAfterSwitch s.engine
            busOwn := s.engine.busOwn || decide (s.engine.cfg.xport = .delegated) }
        chain := s.chain.afterHandshake target } := by
  rw [State.handshaking, Engine.modeSwitch_of_line h, if_pos h]

/-! ### The events of steps 3 to 6, for each target -/

/-- P1 to P5 to normal: five pulses, and `LE` untouched. -/
theorem switchEvents_normal_of_line {g : Engine} (h : g.cfg.oep = true) :
    switchEvents .normal g =
      (if g.enstate = .pwmEnabled then [.oe (.ofLevel g.params.suspendLevel)] else []) ++
      (if g.cfg.xport = .delegated then [.busClose] else []) ++
      [.oe .high, .clk .high, .clk .low, .oe .low, .clk .high, .clk .low, .oe .high, .clk .high, .clk .low,
       .clk .high, .clk .low, .clk .high, .clk .low] ++
      restoreEvents g ++
      (if g.cfg.xport = .delegated then [.busOpen] else []) := by
  rw [switchEvents, if_pos h, if_pos rfl, selectorEvents]
  simp only [pulseEvents, List.append_assoc, List.cons_append, List.nil_append]

/-- P1 to P5 to special: the extra pulse before P4 under its parameter, `LE` high during P4, and nothing restored. -/
theorem switchEvents_special_of_line {g : Engine} (h : g.cfg.oep = true) :
    switchEvents .special g =
      (if g.enstate = .pwmEnabled then [.oe (.ofLevel g.params.suspendLevel)] else []) ++
      (if g.cfg.xport = .delegated then [.busClose] else []) ++
      [.oe .high, .clk .high, .clk .low, .oe .low, .clk .high, .clk .low, .oe .high, .clk .high, .clk .low] ++
      (if g.params.specialExtraPulse then [.clk .high, .clk .low] else []) ++
      [.le .high, .clk .high, .clk .low, .le .low, .clk .high, .clk .low] ++
      (if g.cfg.xport = .delegated then [.busOpen] else []) := by
  have hnothing : ¬ ChipMode.special = .normal := by decide
  rw [switchEvents, if_pos h, if_neg hnothing, selectorEvents]
  simp only [pulseEvents, List.append_assoc, List.cons_append, List.nil_append]

end Sys2Proof.Machine

namespace Sys2Proof.Proofs

open Sys2Proof.Machine

/-- Settles O43: the row of opcode `0x9`, and `TONORMAL` without the line and with it, its events written out. -/
theorem tonormalRunsTheNormalHandshake : Obligations.TonormalRunsTheNormalHandshake := by
  refine ⟨fun w hopc => decodeWord_of_opcode hopc rfl, fun s => exec_tonormal_absent, fun s hline => ?_⟩
  rw [← switchEvents_normal_of_line hline]
  exact congrArg Host.Outcome.next (State.handshaking_of_line hline .normal)

/-- Settles O44: the row of opcode `0xA`, and `TOSPECIAL` without the line and with it, its events written out. -/
theorem tospecialRunsTheSpecialHandshake : Obligations.TospecialRunsTheSpecialHandshake := by
  refine ⟨fun w hopc => decodeWord_of_opcode hopc rfl, fun s => exec_tospecial_absent, fun s hline => ?_⟩
  rw [← switchEvents_special_of_line hline]
  exact congrArg Host.Outcome.next (State.handshaking_of_line hline .special)

end Sys2Proof.Proofs
end

section
/-! The chain family: what a handshake leaves in each chip (R107), what a chip shows (R108), and that a command acts on
the engine through the engine alone (R111). -/

namespace Sys2Proof.Machine

open Sys2Proof.Safety

/-! ### The registers after a handshake -/

theorem Chain.afterHandshake_getElem? (target : ChipMode) (c : Chain) (k : Nat) :
    (c.afterHandshake target).chips[k]? = c.chips[k]?.map (Chip.afterHandshake target) :=
  List.getElem?_map

/-- Either target loses the shift register of every chip. -/
theorem srAt_afterHandshake {c : Chain} {k : Nat} (hk : k < c.chips.length) (target : ChipMode) :
    srAt (c.afterHandshake target) k = some .unknown := by
  rw [srAt, Chain.afterHandshake_getElem?, List.getElem?_eq_getElem hk]
  cases target <;> rfl

theorem outrAt_afterHandshake_normal (c : Chain) (k : Nat) :
    outrAt (c.afterHandshake .normal) k = outrAt c k := by
  rw [outrAt, Chain.afterHandshake_getElem?, Option.map_map]
  rfl

theorem cfgrAt_afterHandshake_normal (c : Chain) (k : Nat) :
    cfgrAt (c.afterHandshake .normal) k = cfgrAt c k := by
  rw [cfgrAt, Chain.afterHandshake_getElem?, Option.map_map]
  rfl

theorem outrAt_afterHandshake_special {c : Chain} {k : Nat} (hk : k < c.chips.length) :
    outrAt (c.afterHandshake .special) k = some .unknown := by
  rw [outrAt, Chain.afterHandshake_getElem?, List.getElem?_eq_getElem hk]
  rfl

theorem cfgrAt_afterHandshake_special {c : Chain} {k : Nat} (hk : k < c.chips.length) :
    cfgrAt (c.afterHandshake .special) k = some .unknown := by
  rw [cfgrAt, Chain.afterHandshake_getElem?, List.getElem?_eq_getElem hk]
  rfl

/-- With the enable line a mode switch is a handshake, whatever it emits. -/
theorem State.handshaking_chain_of_line {s : State} (h : s.engine.cfg.oep = true) (target : ChipMode)
    (f : Engine → Engine) : (s.handshaking target f).chain = s.chain.afterHandshake target :=
  if_pos h

/-! ### What a chip shows -/

theorem Chain.shown_of_chip {c : Chain} {k : Nat} {chip : Chip} (h : c.chips[k]? = some chip) (sense : PwmSense)
    (oe : Option OeDrive) : c.shown sense oe k = .ofLine sense c.mode oe chip.outr := by
  rw [Chain.shown, h]

@[simp] theorem pwmOn_activeTime (d : Byte) : pwmOn .activeTime d = d.toNat := rfl

@[simp] theorem pwmOn_highTime (d : Byte) : pwmOn .highTime d = 255 - d.toNat := rfl

/-- The two ends of the duty are steady levels (R89). -/
@[simp] theorem Shown.ofDuty_zero (outr : ChipByte) : Shown.ofDuty outr 0 = .off := rfl

@[simp] theorem Shown.ofDuty_full (outr : ChipByte) : Shown.ofDuty outr 255 = .driven outr := rfl

theorem Shown.ofDuty_between (outr : ChipByte) {on : Nat} (hpos : 0 < on) (hfull : on < 255) :
    Shown.ofDuty outr on = .dimmed outr on := by
  rw [Shown.ofDuty, if_neg (by omega), if_neg (by omega)]

/-- In normal mode a chip under PWM shows the duty in which `OE` is low. -/
theorem Chain.shown_pwm {c : Chain} {k : Nat} {chip : Chip} (h : c.chips[k]? = some chip) (hmode : c.mode = .normal)
    (sense : PwmSense) (d : Byte) : c.shown sense (some (.pwm d)) k = .ofDuty chip.outr (pwmOn sense d) := by
  rw [Chain.shown_of_chip h, hmode, Shown.ofLine]

/-! ### A command acts on the engine through the engine alone -/

/-- What a command does to the engine, as a function of the engine alone (R23, R111). -/
def Engine.afterCommand (i : Instr) (g : Engine) : Engine :=
  match i with
  | .bufwr idx byte => g.writeFb idx byte
  | .sendraw => g.shiftAndLatch (frameBytes g.fb.read g.cfg.n)
  | .sendchr => g.shiftAndLatch (frameBytes (fun i => segmap (g.fb.read i)) g.cfg.n)
  | .sendnum num => g.shiftAndLatch (numBytes num g.cfg.n)
  | .latch => g.latchPulse
  | .enable => g.driveEnable .low .enabled
  | .disable => g.driveEnable .high .disabled
  | .bright level => g.setBrightness level
  | .tonormal => g.modeSwitch .normal
  | .tospecial => g.modeSwitch .special
  | .nop | .reservedB | .reservedC | .reservedD | .reservedE | .reservedF => g

/-- Every command completes with that engine and the same host side; only what it leaves in the chain depends on the
chain. -/
theorem exec_eq_afterCommand (i : Instr) (s : State) :
    ∃ c, exec i s = .next { s with engine := s.engine.afterCommand i, chain := c } := by
  cases i <;> exact ⟨_, rfl⟩

/-- With another chain a command completes with the same engine and the same host side. -/
theorem exec_of_other_chain {i : Instr} {s t : State} (h : exec i s = .next t) (c : Chain) :
    ∃ t', exec i { s with chain := c } = .next t' ∧ t'.engine = t.engine ∧ t'.host = t.host := by
  obtain ⟨c₁, h₁⟩ := exec_eq_afterCommand i s
  obtain ⟨c₂, h₂⟩ := exec_eq_afterCommand i { s with chain := c }
  cases h₁.symm.trans h
  exact ⟨_, h₂, rfl, rfl⟩

end Sys2Proof.Machine

namespace Sys2Proof.Proofs

open Sys2Proof.Machine

/-- Settles O50: with the line each switch leaves the chain after its handshake, register by register. -/
theorem handshakeLosesTheShiftRegisters : Obligations.HandshakeLosesTheShiftRegisters := by
  refine ⟨fun i p => rfl, fun s hline => ⟨⟨_, rfl, ?normal⟩, ⟨_, rfl, ?special⟩⟩⟩
  case normal =>
    rw [State.handshaking_chain_of_line hline]
    exact ⟨Chain.afterHandshake_mode .., fun k hk =>
      ⟨srAt_afterHandshake hk _, outrAt_afterHandshake_normal .., cfgrAt_afterHandshake_normal ..⟩⟩
  case special =>
    rw [State.handshaking_chain_of_line hline]
    exact ⟨Chain.afterHandshake_mode .., fun k hk =>
      ⟨srAt_afterHandshake hk _, outrAt_afterHandshake_special hk, cfgrAt_afterHandshake_special hk⟩⟩

/-- Settles O51: by the mode, then by the level of the line; under PWM the duty is `d` or `255 - d` by the sense. -/
theorem chipsShowWhatTheEnableLineLets : Obligations.ChipsShowWhatTheEnableLineLets := by
  intro sense c k chip hchip
  refine ⟨fun hmode oe => ?special, fun hmode => ⟨?low, ?high, ?absent, fun d => ?pwm⟩⟩
  case pwm =>
    rw [Chain.shown_pwm hchip hmode]
    refine ⟨?activeBetween, ?highBetween, ?off, ?driven⟩
    case activeBetween =>
      rintro rfl hpos hfull
      rw [pwmOn_activeTime]
      exact Shown.ofDuty_between _ hpos hfull
    case highBetween =>
      rintro rfl hpos hfull
      rw [pwmOn_highTime]
      exact Shown.ofDuty_between _ (by omega) (by omega)
    case off | driven => rintro (⟨rfl, hd⟩ | ⟨rfl, hd⟩) <;> simp [hd]
  case special | low | high | absent => rw [Chain.shown_of_chip hchip, hmode, Shown.ofLine]

/-- Settles O52: a step resets, takes a word or stays idle, by the host side alone, and in none of them does the chain
reach the engine. -/
theorem engineNeverReadsTheChain : Obligations.EngineNeverReadsTheChain := by
  intro s t c hstep
  by_cases hrst : s.host.rst = true
  · rw [step_rst s hrst] at hstep
    cases hstep
    exact ⟨_, step_rst _ hrst, rfl, rfl⟩
  rw [Bool.not_eq_true] at hrst
  cases hw : s.host.prog[s.host.cp]? with
  | none =>
    rw [step_none s hrst hw] at hstep
    cases hstep
    exact ⟨_, step_none _ hrst hw, rfl, rfl⟩
  | some w =>
    obtain ⟨u, hexec, rfl⟩ := exec_of_step_word hrst hw hstep
    obtain ⟨u', hexec', hengine, hhost⟩ := exec_of_other_chain hexec c
    refine ⟨u'.advance, ?_, hengine, ?_⟩
    · rw [step_word { s with chain := c } w hrst hw, hexec', advanceOutcome_next]
    · rw [State.advance_host, State.advance_host, hhost]

end Sys2Proof.Proofs
end

section
/-! The exceptions family: there are none, every command completes (R113). -/

namespace Sys2Proof.Machine

/-- No command faults and none is refused: each has its meaning, which answers a next state. -/
theorem exec_completes (i : Instr) (s : State) : ∃ t, exec i s = .next t :=
  let ⟨_, hexec⟩ := exec_eq_afterCommand i s
  ⟨_, hexec⟩

end Sys2Proof.Machine

namespace Sys2Proof.Proofs

open Sys2Proof.Machine

/-- Settles O17: every command completes, and every word decodes to a command, the reserved opcodes among them. -/
theorem everyCommandCompletes : Obligations.EveryCommandCompletes :=
  ⟨exec_completes, fun w => exec_completes (decodeWord w)⟩

end Sys2Proof.Proofs
end

section
/-! The reset and hazards family: while `RST` is asserted the engine takes no word and a step is the reset sequence
(R130, R131). -/

namespace Sys2Proof.Machine

/-- `CMD_READY` is low exactly while `RST` is asserted (R131). -/
theorem State.cmdReady_eq_false {s : State} : s.cmdReady = false ↔ s.host.rst = true := by
  rw [State.cmdReady, Bool.not_eq_false']

/-- With `CMD_READY` low no word is taken, whatever the host offers (R125). -/
theorem State.fetch_of_not_ready {s : State} (h : s.cmdReady = false) : s.fetch = none := by
  rw [State.fetch, h, if_neg Bool.false_ne_true]

end Sys2Proof.Machine

namespace Sys2Proof.Proofs

open Sys2Proof.Machine

/-- Settles O3: `RST` holds `CMD_READY` low, so no word is fetched, and the step answers the state after the reset
sequence. -/
theorem noCommandIsTakenInReset : Obligations.NoCommandIsTakenInReset := by
  intro s hrst
  have hready : s.cmdReady = false := State.cmdReady_eq_false.mpr hrst
  exact ⟨hready, State.fetch_of_not_ready hready, s.applyReset, step_rst s hrst,
    s.applyReset_engine, s.applyReset_host⟩

end Sys2Proof.Proofs
end

section
/-! Every command as one equation: the events it emits, the registers it writes, and what the chain makes of it. The
statements over all commands are read off from these two equations. -/

namespace Sys2Proof.Machine

open Sys2Proof.Safety

/-! ### The registers after a command -/

/-- `ENSTATE` after a command (R84, R92). -/
def Engine.enstateAfter (i : Instr) (g : Engine) : EnState :=
  match i with
  | .enable => if g.cfg.oep then .enabled else g.enstate
  | .disable => if g.cfg.oep then .disabled else g.enstate
  | .bright _ => if g.cfg.oep then .pwmEnabled else g.enstate
  | .tonormal | .tospecial => enstateAfterSwitch g
  | .bufwr .. | .sendraw | .sendchr | .sendnum _ | .latch
  | .nop | .reservedB | .reservedC | .reservedD | .reservedE | .reservedF => g.enstate

/-- `BRIGHT` after a command (R84, R87). -/
def Engine.brightAfter (i : Instr) (g : Engine) : Byte :=
  match i with
  | .bright d => if g.cfg.oep then d else g.bright
  | .bufwr .. | .sendraw | .sendchr | .sendnum _ | .latch | .enable | .disable | .tonormal | .tospecial
  | .nop | .reservedB | .reservedC | .reservedD | .reservedE | .reservedF => g.bright

/-- `FB` after a command (R35, R77). -/
def Engine.fbAfter (i : Instr) (g : Engine) : Memory :=
  match i with
  | .bufwr idx byte => if idx.toNat ≤ 253 then g.fb.write idx.toNat byte else g.fb
  | .sendraw | .sendchr | .sendnum _ | .latch | .enable | .disable | .bright _ | .tonormal | .tospecial
  | .nop | .reservedB | .reservedC | .reservedD | .reservedE | .reservedF => g.fb

theorem Engine.fbAfter_of_not_bufwr {i : Instr} (h : ∀ idx byte, i ≠ .bufwr idx byte) (g : Engine) :
    g.fbAfter i = g.fb := by
  cases i
  case bufwr idx byte => exact absurd rfl (h idx byte)
  all_goals rfl

/-- Without the line `ENSTATE` stands still (R84, R88). -/
theorem Engine.enstateAfter_absent {g : Engine} (h : g.cfg.oep = false) (i : Instr) : g.enstateAfter i = g.enstate := by
  cases i <;> simp [Engine.enstateAfter, enstateAfterSwitch, h]

theorem Engine.brightAfter_absent {g : Engine} (h : g.cfg.oep = false) (i : Instr) : g.brightAfter i = g.bright := by
  cases i <;> simp [Engine.brightAfter, h]

/-- The engine after a command: the command's events, then its registers. -/
theorem Engine.afterCommand_eq (i : Instr) (g : Engine) :
    g.afterCommand i =
      { g.emitAll (commandEvents g i) with
        enstate := g.enstateAfter i, bright := g.brightAfter i, fb := g.fbAfter i } := by
  have quiet : g = { g.emitAll [] with enstate := g.enstate, bright := g.bright, fb := g.fb } := by
    rw [Engine.emitAll_nil]
  cases i
  case bufwr idx byte =>
    by_cases hidx : idx.toNat ≤ 253 <;>
      simp [Engine.afterCommand, Engine.fbAfter, Engine.enstateAfter, Engine.brightAfter, commandEvents,
        Engine.writeFb, hidx]
  case sendraw =>
    rw [Engine.afterCommand, Engine.shiftAndLatch_emits, frameBytes_eq]
    rfl
  case sendchr =>
    rw [Engine.afterCommand, Engine.shiftAndLatch_emits, frameBytes_eq]
    rfl
  case sendnum num =>
    rw [Engine.afterCommand, Engine.shiftAndLatch_emits, numBytes_eq]
    rfl
  case latch => exact Engine.latchPulse_emits g
  case enable | disable | bright =>
    cases h : g.cfg.oep <;>
      simp [Engine.afterCommand, Engine.setBrightness, Engine.driveEnable, Engine.emit_eq_emitAll, commandEvents,
        Engine.enstateAfter, Engine.brightAfter, Engine.fbAfter, h]
  case tonormal => exact Engine.modeSwitch_emits .normal g
  case tospecial => exact Engine.modeSwitch_emits .special g
  all_goals exact quiet

/-! ### The chain after a command -/

/-- What a command leaves in the chain: a mode switch is one unit (R107), any other command is seen event by event. -/
def Chain.afterCommand (i : Instr) (g : Engine) (c : Chain) : Chain :=
  match i with
  | .tonormal => if g.cfg.oep then c.afterHandshake .normal else c
  | .tospecial => if g.cfg.oep then c.afterHandshake .special else c
  | .bufwr .. | .sendraw | .sendchr | .sendnum _ | .latch | .enable | .disable | .bright _
  | .nop | .reservedB | .reservedC | .reservedD | .reservedE | .reservedF =>
    c.observeAll g.lines (commandEvents g i)

@[simp] theorem Chain.afterCommand_length (i : Instr) (g : Engine) (c : Chain) :
    (c.afterCommand i g).chips.length = c.chips.length := by
  cases i
  case tonormal | tospecial => cases h : g.cfg.oep <;> simp [Chain.afterCommand, h]
  all_goals exact Chain.observeAll_length ..

/-- Only a mode switch to normal takes the chain out of special mode (R107). -/
theorem Chain.afterCommand_special {i : Instr} (h : i ≠ .tonormal) (g : Engine) {c : Chain} (hc : c.mode = .special) :
    (c.afterCommand i g).mode = .special := by
  cases i
  case tonormal => exact absurd rfl h
  case tospecial => cases hoep : g.cfg.oep <;> simp [Chain.afterCommand, hoep, hc]
  all_goals exact (Chain.observeAll_mode ..).trans hc

/-- A command whose engine action writes registers beside its events. -/
theorem State.driving_command (s : State) (i : Instr) :
    s.driving (Engine.afterCommand i) =
      { s with
        engine := s.engine.afterCommand i
        chain := s.chain.observeAll s.engine.lines (commandEvents s.engine i) } :=
  State.driving_trace s _ _ (by rw [Engine.afterCommand_eq, Engine.emitAll_trace])

/-- What every command answers. -/
theorem exec_eq (i : Instr) (s : State) :
    exec i s = .next
      { s with engine := s.engine.afterCommand i, chain := s.chain.afterCommand i s.engine } := by
  cases i
  case sendraw => exact congrArg Host.Outcome.next (s.driving_command .sendraw)
  case sendchr => exact congrArg Host.Outcome.next (s.driving_command .sendchr)
  case sendnum num => exact congrArg Host.Outcome.next (s.driving_command (.sendnum num))
  case latch => exact congrArg Host.Outcome.next (s.driving_command .latch)
  case enable => exact congrArg Host.Outcome.next (s.driving_command .enable)
  case disable => exact congrArg Host.Outcome.next (s.driving_command .disable)
  case bright d => exact congrArg Host.Outcome.next (s.driving_command (.bright d))
  all_goals rfl

theorem exec_engine {i : Instr} {s t : State} (h : exec i s = .next t) :
    t.engine =
      { s.engine.emitAll (commandEvents s.engine i) with
        enstate := s.engine.enstateAfter i, bright := s.engine.brightAfter i, fb := s.engine.fbAfter i } := by
  cases (exec_eq i s).symm.trans h
  exact Engine.afterCommand_eq ..

theorem exec_chain {i : Instr} {s t : State} (h : exec i s = .next t) :
    t.chain = s.chain.afterCommand i s.engine := by
  cases (exec_eq i s).symm.trans h
  rfl

theorem exec_engine_cfg {i : Instr} {s t : State} (h : exec i s = .next t) : t.engine.cfg = s.engine.cfg := by
  rw [exec_engine h, Engine.emitAll_cfg]

theorem exec_engine_lines {i : Instr} {s t : State} (h : exec i s = .next t) :
    t.engine.lines = s.engine.lines.afterAll (commandEvents s.engine i) := by
  rw [exec_engine h, Engine.emitAll_lines]

theorem exec_engine_enstate {i : Instr} {s t : State} (h : exec i s = .next t) :
    t.engine.enstate = s.engine.enstateAfter i := by rw [exec_engine h]

theorem exec_engine_bright {i : Instr} {s t : State} (h : exec i s = .next t) :
    t.engine.bright = s.engine.brightAfter i := by rw [exec_engine h]

theorem exec_engine_fb {i : Instr} {s t : State} (h : exec i s = .next t) :
    t.engine.fb = s.engine.fbAfter i := by rw [exec_engine h]

/-! ### Registers a command does not read -/

/-- The bytes of a frame are read at positions of the chain only (R35). -/
theorem frame_congr {n : Nat} {f f' : Nat → Byte} (h : ∀ k, k < n → f' k = f k) :
    (List.range n).reverse.map f' = (List.range n).reverse.map f :=
  List.map_congr_left fun k hk => h k (List.mem_range.mp (List.mem_reverse.mp hk))

theorem commandEvents_of_agreeing_fb {g : Engine} {m : Memory} (h : ∀ k, k < g.cfg.n → m.read k = g.fb.read k)
    (i : Instr) : commandEvents { g with fb := m } i = commandEvents g i := by
  cases i
  case sendraw => exact congrArg (frameEvents g) (frame_congr h)
  case sendchr => exact congrArg (frameEvents g) (frame_congr fun k hk => congrArg segmap (h k hk))
  all_goals rfl

theorem byteEvents_of_other_bright {g : Engine} (h : g.enstate ≠ .pwmEnabled) (d : Byte) :
    byteEvents { g with bright := d } = byteEvents g := by
  funext b
  rw [byteEvents_of_not_pwm h, byteEvents_of_not_pwm (g := { g with bright := d }) h]

theorem frameEvents_of_other_bright {g : Engine} (h : g.enstate ≠ .pwmEnabled) (d : Byte) (bytes : List Byte) :
    frameEvents { g with bright := d } bytes = frameEvents g bytes := by
  rw [frameEvents, frameEvents, byteEvents_of_other_bright h]

theorem switchEvents_of_other_bright {g : Engine} (h : g.enstate ≠ .pwmEnabled) (d : Byte) (target : ChipMode) :
    switchEvents target { g with bright := d } = switchEvents target g := by
  have hrestore : restoreEvents { g with bright := d } = restoreEvents g := by
    unfold restoreEvents
    cases hst : g.enstate
    case pwmEnabled => exact absurd hst h
    all_goals rfl
  simp only [switchEvents, hrestore]

/-- Outside `PWM_ENABLED` no event carries `BRIGHT` (R20). -/
theorem commandEvents_of_other_bright {g : Engine} (h : g.enstate ≠ .pwmEnabled) (d : Byte) (i : Instr) :
    commandEvents { g with bright := d } i = commandEvents g i := by
  cases i
  case sendraw | sendchr | sendnum => exact frameEvents_of_other_bright h d _
  case tonormal | tospecial => exact switchEvents_of_other_bright h d _
  all_goals rfl

/-- With other contents of registers that its events do not show, a command leaves the chain alike. -/
theorem Chain.afterCommand_congr {i : Instr} {g g' : Engine} (hcfg : g'.cfg = g.cfg) (hlines : g'.lines = g.lines)
    (hevents : commandEvents g' i = commandEvents g i) (c : Chain) : c.afterCommand i g' = c.afterCommand i g := by
  cases i
  case tonormal | tospecial => simp only [Chain.afterCommand, hcfg]
  all_goals simp only [Chain.afterCommand, hlines, hevents]

end Sys2Proof.Machine

namespace Sys2Proof.Proofs

open Sys2Proof.Machine Sys2Proof.Safety

/-- Settles O19: a command emits events and writes `ENSTATE`, `BRIGHT` and `FB` only. -/
theorem configurationIsReadOnly : Obligations.ConfigurationIsReadOnly := by
  intro i s t h
  refine ⟨exec_engine_cfg h, ?_, exec_host h⟩
  rw [exec_engine h, Engine.emitAll_params]

/-- Settles O23: `FB` after a command is the row of `BUFWR`, or as before. -/
theorem onlyBufwrWritesTheFrameBuffer : Obligations.OnlyBufwrWritesTheFrameBuffer := by
  intro i s t hi h
  rw [exec_engine_fb h, Engine.fbAfter_of_not_bufwr hi]

/-- Settles O24: the same events, so the same engine but for the buffer, and the same chain. -/
theorem entriesBeyondTheChainAreNeverRead : Obligations.EntriesBeyondTheChainAreNeverRead := by
  intro i s t m hagree hi h
  have hevents := commandEvents_of_agreeing_fb hagree i
  cases (exec_eq i s).symm.trans h
  have hengine : Engine.afterCommand i { s.engine with fb := m } = { s.engine.afterCommand i with fb := m } := by
    rw [Engine.afterCommand_eq, Engine.afterCommand_eq, hevents, Engine.fbAfter_of_not_bufwr hi]
    cases i <;> rfl
  rw [exec_eq, hengine,
    Chain.afterCommand_congr (g := s.engine) (g' := { s.engine with fb := m }) rfl rfl hevents]

/-- Settles O41: the rows of `ENSTATE` and of `BRIGHT`, command by command. -/
theorem enableStateMachineHasOnlyItsTransitions : Obligations.EnableStateMachineHasOnlyItsTransitions := by
  intro i s t h
  rw [exec_engine_enstate h, exec_engine_bright h, exec_trace h]
  refine ⟨fun habsent => ⟨Engine.enstateAfter_absent habsent i, Engine.brightAfter_absent habsent i⟩,
    fun hline => ?_⟩
  refine ⟨?enable, ?disable, ?bright, ?switch, ?other⟩
  case enable | disable =>
    rintro rfl
    simp [Engine.enstateAfter, Engine.brightAfter, commandEvents, hline]
  case bright =>
    rintro d rfl
    simp [Engine.enstateAfter, Engine.brightAfter, commandEvents, hline]
  case switch =>
    rintro (rfl | rfl) <;>
    · refine ⟨rfl, fun hpwm hdemote => ?_, fun hkept => ?_⟩
      · exact if_pos ⟨hline, hpwm, hdemote⟩
      · refine if_neg fun ⟨_, hpwm, hdemote⟩ => ?_
        simp [hpwm, hdemote] at hkept
  case other =>
    intro henable hdisable hbright hnormal hspecial
    cases i
    case enable => exact absurd rfl henable
    case disable => exact absurd rfl hdisable
    case bright d => exact absurd rfl (hbright d)
    case tonormal => exact absurd rfl hnormal
    case tospecial => exact absurd rfl hspecial
    all_goals exact ⟨rfl, rfl⟩

/-- Settles O42: the same events, so the same engine but for `BRIGHT`, and the same chain. -/
theorem brightIsUnobservableOutsidePwm : Obligations.BrightIsUnobservableOutsidePwm := by
  intro i s t d hsteady h
  have hevents := commandEvents_of_other_bright hsteady d i
  cases (exec_eq i s).symm.trans h
  have hchain := Chain.afterCommand_congr (g := s.engine) (g' := { s.engine with bright := d }) rfl rfl hevents
  refine ⟨_, exec_eq i _, ?_, hchain _, rfl⟩
  rw [Engine.afterCommand_eq, Engine.afterCommand_eq, hevents]
  cases i <;> rfl

end Sys2Proof.Proofs
end

section
/-! Where the events of a command leave the four lines, and the invariant between commands (R75): it holds right after
every reset, and every command keeps it. -/

namespace Sys2Proof.Machine

open Sys2Proof.Safety

/-! ### The lines after a byte and after a frame -/

/-- Where a transfer leaves the data line: at bit 7 of the byte, or released (R68, R69). -/
def restingData (x : Xport) (b : Byte) : Wire :=
  match x with
  | .emulated => .driven (levelOfBit b[7])
  | .delegated => .x

/-- Where a byte leaves the enable line: at the restored PWM level, or alone (R71). -/
def heldEnable (g : Engine) (oe : Option OeDrive) : Option OeDrive :=
  if g.enstate = .pwmEnabled then some (.pwm g.bright) else oe

theorem heldEnable_heldEnable (g : Engine) (oe : Option OeDrive) :
    heldEnable g (heldEnable g oe) = heldEnable g oe := by
  unfold heldEnable
  split <;> rfl

theorem Lines.afterAll_transferEvents (l : Lines) (x : Xport) (b : Byte) :
    l.afterAll (transferEvents x b) = { l with sdi := restingData x b, clk := .driven .low } := by
  cases x
  · exact Lines.afterAll_emulatedEvents l b
  · exact Lines.afterAll_delegatedEvents l b

theorem Lines.afterAll_byteEvents (l : Lines) (g : Engine) (b : Byte) :
    l.afterAll (byteEvents g b) =
      { l with sdi := restingData g.cfg.xport b, clk := .driven .low, oe := heldEnable g l.oe } := by
  by_cases h : g.enstate = .pwmEnabled
  · simp [byteEvents_of_pwm h, Lines.afterAll_transferEvents, heldEnable, h]
  · simp [byteEvents_of_not_pwm h, Lines.afterAll_transferEvents, heldEnable, h]

/-- Of several bytes the last one stays on the lines. -/
theorem Lines.afterAll_bytes (l : Lines) (g : Engine) (bytes : List Byte) (last : Byte) :
    l.afterAll ((bytes ++ [last]).flatMap (byteEvents g)) =
      { l with sdi := restingData g.cfg.xport last, clk := .driven .low, oe := heldEnable g l.oe } := by
  induction bytes generalizing l with
  | nil => rw [List.nil_append, List.flatMap_singleton, Lines.afterAll_byteEvents]
  | cons b bytes ih =>
    rw [List.cons_append, List.flatMap_cons, Lines.afterAll_append, ih, Lines.afterAll_byteEvents,
      heldEnable_heldEnable]

theorem Lines.afterAll_frameEvents (l : Lines) (g : Engine) (bytes : List Byte) (last : Byte) :
    l.afterAll (frameEvents g (bytes ++ [last])) =
      { l with
        sdi := restingData g.cfg.xport last, clk := .driven .low, le := .low, oe := heldEnable g l.oe } := by
  rw [frameEvents, Lines.afterAll_append, Lines.afterAll_bytes, Lines.afterAll_latchEvents]

/-- A frame ends with the byte of position 0 (R40, R76). -/
theorem frame_ends {n : Nat} (hn : 1 ≤ n) (f : Nat → Byte) :
    ∃ bytes, (List.range n).reverse.map f = bytes ++ [f 0] := by
  obtain ⟨k, rfl⟩ := Nat.exists_eq_add_of_le' hn
  rw [List.range_succ_eq_map, List.reverse_cons, List.map_append]
  exact ⟨_, rfl⟩

/-- The byte of a number that goes out last (R80). -/
def lastNumByte (n : Nat) (num : BitVec 16) : Byte := if n = 1 then num.extractLsb' 0 8 else num.extractLsb' 8 8

theorem numFrame_ends {n : Nat} (hn : 1 ≤ n) (num : BitVec 16) :
    ∃ bytes, numFrame n num = bytes ++ [lastNumByte n num] := by
  obtain rfl | htwo := hn.eq_or_lt
  · exact ⟨[], rfl⟩
  · rw [numFrame_of_two_le htwo, lastNumByte, if_neg (by omega)]
    exact ⟨[_], rfl⟩

/-! ### The lines after a handshake -/

/-- What drives the enable line after a handshake: to normal it follows `ENSTATE` as step 1 leaves it, to special it
stays where P3 put it (R95). -/
def driveAfterSwitch (target : ChipMode) (g : Engine) : OeDrive :=
  match target with
  | .normal => enableDrive { g with enstate := enstateAfterSwitch g }
  | .special => .high

/-- Where a handshake leaves the latch line: only P4 to special moves it, up and down again (R94). -/
def latchAfterSwitch (target : ChipMode) (le : Level) : Level :=
  match target with
  | .normal => le
  | .special => .low

theorem Lines.afterAll_restoreEvents {g : Engine} (h : g.cfg.oep = true) {l : Lines} (hoe : l.oe = some .high) :
    l.afterAll (restoreEvents g) = { l with oe := some (driveAfterSwitch .normal g) } := by
  cases hst : g.enstate
  case disabled => simp [restoreEvents, driveAfterSwitch, enableDrive, enstateAfterSwitch, hst, ← hoe]
  case enabled => simp [restoreEvents, driveAfterSwitch, enableDrive, enstateAfterSwitch, hst]
  case pwmEnabled =>
    cases hafter : g.params.pwmAfterSwitch <;>
      simp [restoreEvents, driveAfterSwitch, enableDrive, enstateAfterSwitch, hst, h, hafter]

theorem Lines.afterAll_switchEvents {g : Engine} (h : g.cfg.oep = true) (target : ChipMode) (l : Lines) :
    l.afterAll (switchEvents target g) =
      { sdi := if g.cfg.xport = .delegated then .x else l.sdi
        clk := .driven .low
        le := latchAfterSwitch target l.le
        oe := some (driveAfterSwitch target g) } := by
  cases target
  case normal =>
    rw [switchEvents_normal_of_line h]
    cases hx : g.cfg.xport <;> by_cases hst : g.enstate = .pwmEnabled <;>
      simp [hst, Lines.afterAll_restoreEvents h, latchAfterSwitch]
  case special =>
    rw [switchEvents_special_of_line h]
    cases hx : g.cfg.xport <;> by_cases hst : g.enstate = .pwmEnabled <;> cases g.params.specialExtraPulse <;>
      simp [hst, latchAfterSwitch, driveAfterSwitch]

theorem switchEvents_absent {g : Engine} (h : g.cfg.oep = false) (target : ChipMode) : switchEvents target g = [] := by
  simp [switchEvents, h]

/-! ### The lines after any command -/

/-- The data line after a command. -/
def Engine.sdiAfter (i : Instr) (g : Engine) (sdi : Wire) : Wire :=
  match i with
  | .sendraw => restingData g.cfg.xport (g.fb.read 0)
  | .sendchr => restingData g.cfg.xport (segmap (g.fb.read 0))
  | .sendnum num => restingData g.cfg.xport (lastNumByte g.cfg.n num)
  | .tonormal | .tospecial => if g.cfg.oep = true ∧ g.cfg.xport = .delegated then .x else sdi
  | .bufwr .. | .latch | .enable | .disable | .bright _
  | .nop | .reservedB | .reservedC | .reservedD | .reservedE | .reservedF => sdi

/-- The enable line after a command. -/
def Engine.oeAfter (i : Instr) (g : Engine) (oe : Option OeDrive) : Option OeDrive :=
  match i with
  | .sendraw | .sendchr | .sendnum _ => heldEnable g oe
  | .enable => if g.cfg.oep then some .low else oe
  | .disable => if g.cfg.oep then some .high else oe
  | .bright d => if g.cfg.oep then some (.pwm d) else oe
  | .tonormal => if g.cfg.oep then some (driveAfterSwitch .normal g) else oe
  | .tospecial => if g.cfg.oep then some (driveAfterSwitch .special g) else oe
  | .bufwr .. | .latch | .nop | .reservedB | .reservedC | .reservedD | .reservedE | .reservedF => oe

/-- Between commands the clock and the latch are low, and every command leaves them so (R75). -/
theorem Lines.afterAll_commandEvents {g : Engine} (hn : 1 ≤ g.cfg.n) {l : Lines} (hclk : l.clk = .driven .low)
    (hle : l.le = .low) (i : Instr) :
    l.afterAll (commandEvents g i) =
      { sdi := g.sdiAfter i l.sdi, clk := .driven .low, le := .low, oe := g.oeAfter i l.oe } := by
  obtain ⟨sdi, clk, le, oe⟩ := l
  subst hclk hle
  cases i
  case sendraw =>
    obtain ⟨bytes, hbytes⟩ := frame_ends hn g.fb.read
    rw [commandEvents, rawFrame, hbytes, Lines.afterAll_frameEvents]
    rfl
  case sendchr =>
    obtain ⟨bytes, hbytes⟩ := frame_ends hn fun i => segmap (g.fb.read i)
    rw [commandEvents, charFrame, hbytes, Lines.afterAll_frameEvents]
    rfl
  case sendnum num =>
    obtain ⟨bytes, hbytes⟩ := numFrame_ends hn num
    rw [commandEvents, hbytes, Lines.afterAll_frameEvents]
    rfl
  case enable | disable | bright =>
    cases hoep : g.cfg.oep <;> simp [commandEvents, Engine.sdiAfter, Engine.oeAfter, hoep]
  case tonormal | tospecial =>
    cases hoep : g.cfg.oep
    · simp [commandEvents, switchEvents_absent hoep, Engine.sdiAfter, Engine.oeAfter, hoep]
    · simp [commandEvents, Lines.afterAll_switchEvents hoep, Engine.sdiAfter, Engine.oeAfter, latchAfterSwitch,
        hoep]
  all_goals rfl

/-- Under the emulated transport the engine keeps the data line at a level. -/
theorem Engine.sdiAfter_driven {g : Engine} (hx : g.cfg.xport = .emulated) {sdi : Wire}
    (h : sdi = .driven .low ∨ sdi = .driven .high) (i : Instr) :
    g.sdiAfter i sdi = .driven .low ∨ g.sdiAfter i sdi = .driven .high := by
  have hdata (b : Byte) : restingData .emulated b = .driven .low ∨ restingData .emulated b = .driven .high := by
    rw [restingData]
    cases b[7]
    · exact .inl rfl
    · exact .inr rfl
  cases i
  case sendraw | sendchr | sendnum => rw [Engine.sdiAfter, hx]; exact hdata _
  case tonormal | tospecial => simpa [Engine.sdiAfter, hx] using h
  all_goals exact h

/-- Under the delegated transport the data line stays released. -/
theorem Engine.sdiAfter_released {g : Engine} (hx : g.cfg.xport = .delegated) (i : Instr) :
    g.sdiAfter i .x = .x := by
  cases i
  case sendraw | sendchr | sendnum => rw [Engine.sdiAfter, hx]; rfl
  case tonormal | tospecial => simp [Engine.sdiAfter]
  all_goals rfl

theorem enableDrive_afterCommand (i : Instr) (g : Engine) :
    enableDrive (g.afterCommand i) =
      enableDrive { g with enstate := g.enstateAfter i, bright := g.brightAfter i } := by
  rw [Engine.afterCommand_eq]
  rfl

/-- The enable line follows `ENSTATE`, or it is high with the chain in special mode (R75, R100). -/
def enableLineFollows (g : Engine) (c : Chain) (oe : Option OeDrive) : Prop :=
  oe = some (enableDrive g) ∨ oe = some .high ∧ c.mode = .special

/-- A command that leaves the enable line and its registers alone lets it follow as before. -/
theorem enableLineFollows_of_kept {i : Instr} (hi : i ≠ .tonormal) {g : Engine} {c : Chain} {oe : Option OeDrive}
    (h : enableLineFollows g c oe) (hdrive : enableDrive (g.afterCommand i) = enableDrive g) :
    enableLineFollows (g.afterCommand i) (c.afterCommand i g) oe := by
  rw [enableLineFollows, hdrive]
  exact h.imp_right fun ⟨hhigh, hmode⟩ => ⟨hhigh, Chain.afterCommand_special hi g hmode⟩

/-- A frame restores the PWM level, or leaves the line alone. -/
theorem enableLineFollows_of_held {i : Instr} (hi : i ≠ .tonormal) {g : Engine} {c : Chain} {oe : Option OeDrive}
    (h : enableLineFollows g c oe) (hdrive : enableDrive (g.afterCommand i) = enableDrive g) :
    enableLineFollows (g.afterCommand i) (c.afterCommand i g) (heldEnable g oe) := by
  by_cases hpwm : g.enstate = .pwmEnabled
  · left
    rw [hdrive, heldEnable, if_pos hpwm, enableDrive, hpwm]
  · rw [heldEnable, if_neg hpwm]
    exact enableLineFollows_of_kept hi h hdrive

/-- With the line, every command lets it follow. -/
theorem Engine.oeAfter_follows {g : Engine} (hline : g.cfg.oep = true) {c : Chain} {oe : Option OeDrive}
    (h : enableLineFollows g c oe) (i : Instr) :
    enableLineFollows (g.afterCommand i) (c.afterCommand i g) (g.oeAfter i oe) := by
  have hdrive := enableDrive_afterCommand i g
  cases i
  case enable | disable | bright =>
    left
    rw [hdrive]
    simp [Engine.oeAfter, Engine.enstateAfter, Engine.brightAfter, enableDrive, hline]
  case tonormal =>
    left
    rw [hdrive, Engine.oeAfter, if_pos hline]
    rfl
  case tospecial =>
    right
    simp [Engine.oeAfter, Chain.afterCommand, driveAfterSwitch, hline]
  case sendraw | sendchr | sendnum => exact enableLineFollows_of_held (by nofun) h hdrive
  all_goals exact enableLineFollows_of_kept (by nofun) h hdrive

/-- Without the line a command leaves it absent (R88, R98). -/
theorem Engine.oeAfter_absent {g : Engine} (habsent : g.cfg.oep = false) (hst : g.enstate = .disabled)
    (oe : Option OeDrive) (i : Instr) : g.oeAfter i oe = oe := by
  cases i <;> simp [Engine.oeAfter, heldEnable, habsent, hst]

/-! ### The invariant between commands -/

/-- The bus stays with the transport: a handshake gives it back (R25, R91). -/
theorem busOwn_commandEvents {g : Engine} (h : g.busOwn = decide (g.cfg.xport = .delegated)) (i : Instr) :
    (commandEvents g i).foldl busOwnAfter g.busOwn = g.busOwn := by
  cases i
  case sendraw | sendchr | sendnum => exact busOwn_frameEvents ..
  case enable | disable | bright => cases hoep : g.cfg.oep <;> simp [commandEvents, hoep]
  case tonormal | tospecial =>
    rw [commandEvents, busOwn_switchEvents, ← h]
    cases g.busOwn <;> simp
  all_goals rfl

theorem Engine.fbAfter_wf {g : Engine} (h : g.fb.wf = true) (i : Instr) : (g.fbAfter i).wf = true := by
  cases i
  case bufwr idx byte =>
    rw [Engine.fbAfter]
    split
    · exact Memory.write_wf h (by omega) byte
    · exact h
  all_goals exact h

/-- Every command keeps the invariant. -/
theorem exec_keeps_idleInv {i : Instr} {s t : State} (hs : IdleInv s) (h : exec i s = .next t) : IdleInv t := by
  have hcfg := exec_engine_cfg h
  have hlines : t.engine.lines = _ :=
    (exec_engine_lines h).trans (Lines.afterAll_commandEvents hs.chainLength.1 hs.clkLow hs.latchLow i)
  have hengine : t.engine = s.engine.afterCommand i := (exec_engine h).trans (Engine.afterCommand_eq ..).symm
  have hbus : t.engine.busOwn = s.engine.busOwn := by
    rw [exec_engine h]
    exact busOwn_commandEvents hs.busOwned i
  constructor
  case chainLength => rw [hcfg]; exact hs.chainLength
  case frameBuffer => rw [exec_engine_fb h]; exact Engine.fbAfter_wf hs.frameBuffer i
  case clkLow | latchLow => rw [hlines]
  case busOwned => rw [hbus, hcfg]; exact hs.busOwned
  case dataDriven =>
    rw [hcfg, hlines]
    exact fun hx => Engine.sdiAfter_driven hx (hs.dataDriven hx) i
  case dataReleased =>
    rw [hcfg, hlines]
    intro hx
    rw [hs.dataReleased hx]
    exact Engine.sdiAfter_released hx i
  case enableLine =>
    rw [hcfg, hlines, hengine, exec_chain h]
    exact fun hline => Engine.oeAfter_follows hline (hs.enableLine hline) i
  case noEnableLine =>
    rw [hcfg, hlines, exec_engine_enstate h]
    intro habsent
    obtain ⟨hoe, hst⟩ := hs.noEnableLine habsent
    exact ⟨(Engine.oeAfter_absent habsent hst _ i).trans hoe, (Engine.enstateAfter_absent habsent i).trans hst⟩
  case linesFromTrace =>
    rw [exec_engine_lines h, exec_trace h, hcfg, Lines.afterAll_append, ← hs.linesFromTrace]
  case chainPositions => rw [exec_chain h, Chain.afterCommand_length, hcfg]; exact hs.chainPositions
  case commandPointer => rw [exec_host h]; exact hs.commandPointer

theorem clampChainLength_bounds (req : Int) : 1 ≤ clampChainLength req ∧ clampChainLength req ≤ 254 := by
  have h := clampChainLength_cast req
  omega

/-- Right after any reset the invariant holds: the host's pointer and one chip per position are all it asks of the rest
of the machine. -/
theorem idleInv_of_afterReset {s : State} {i : ConfigInputs} {p : Params} (hengine : s.engine = .afterReset i p)
    (hchain : s.chain.chips.length = clampChainLength i.chainLengthReq) (hhost : s.host.cp ≤ s.host.prog.length) :
    IdleInv s := by
  constructor
  case chainPositions => rw [hengine]; exact hchain
  case commandPointer => exact hhost
  all_goals rw [hengine]
  case chainLength => exact clampChainLength_bounds _
  case frameBuffer | clkLow | latchLow | busOwned | linesFromTrace => rfl
  case dataDriven => exact fun hx => .inl ((Lines.afterReset_sdi _).trans (if_pos hx))
  case dataReleased =>
    exact fun hx => (Lines.afterReset_sdi _).trans (if_neg (ne_of_eq_of_ne hx (by decide)))
  case enableLine => exact fun hline => .inl (if_pos hline)
  case noEnableLine => exact fun habsent => ⟨if_neg (ne_true_of_eq_false habsent), rfl⟩

/-- A step is the reset sequence, a command with the pointer moved on, or the idle engine. -/
theorem step_cases {s t : State} (h : step s = .next t) :
    t = s.applyReset ∨
    (∃ i u, exec i s = .next u ∧ t = u.advance ∧ s.host.cp < s.host.prog.length) ∨
    t = s := by
  by_cases hrst : s.host.rst = true
  · rw [step_rst s hrst] at h
    cases h
    exact .inl rfl
  rw [Bool.not_eq_true] at hrst
  cases hw : s.host.prog[s.host.cp]? with
  | none =>
    rw [step_none s hrst hw] at h
    cases h
    exact .inr (.inr rfl)
  | some w =>
    obtain ⟨u, hexec, ht⟩ := exec_of_step_word hrst hw h
    exact .inr (.inl ⟨decodeWord w, u, hexec, ht, (List.getElem?_eq_some_iff.mp hw).1⟩)

/-- Moving the host's pointer within the program keeps the invariant. -/
theorem idleInv_advance {s : State} (hs : IdleInv s) (h : s.host.cp < s.host.prog.length) : IdleInv s.advance :=
  { hs with commandPointer := h }

end Sys2Proof.Machine

namespace Sys2Proof.Proofs

open Sys2Proof.Machine Sys2Proof.Safety

/-- Settles O7: step by step, by the three things a step can be. -/
theorem stepKeepsInvariant : Obligations.StepKeepsInvariant := by
  intro s t hs hstep
  obtain rfl | ⟨i, u, hexec, rfl, hmore⟩ | rfl := step_cases hstep
  · exact idleInv_of_afterReset rfl (Chain.resize_length ..) (Nat.zero_le _)
  · refine idleInv_advance (exec_keeps_idleInv hs hexec) ?_
    rwa [exec_host hexec]
  · exact hs

/-- Settles O6: power-on is a reset, with one chip per position and no program yet. -/
theorem invariantHoldsAtPowerOn : Obligations.InvariantHoldsAtPowerOn :=
  fun _ _ => idleInv_of_afterReset rfl (Chain.powerOn_length ..) (Nat.le_refl 0)

/-- Settles O36: the lines after the frame, and which byte it ends with. -/
theorem linesRestAfterAFrame : Obligations.LinesRestAfterAFrame := by
  intro s t i last hs hframe h
  have hlines : t.engine.lines =
      { sdi := restingData s.engine.cfg.xport last, clk := .driven .low, le := .low
        oe := heldEnable s.engine s.engine.lines.oe } := by
    rw [exec_engine_lines h, Lines.afterAll_commandEvents hs.chainLength.1 hs.clkLow hs.latchLow]
    obtain ⟨rfl, rfl⟩ | ⟨rfl, rfl⟩ | ⟨num, rfl, rfl⟩ := hframe <;> rfl
  rw [hlines]
  exact ⟨rfl, rfl, fun hx => by rw [hx]; rfl, fun hx => by rw [hx]; rfl, fun hpwm => if_pos hpwm,
    fun hsteady => if_neg hsteady⟩

/-- Settles O45: where the handshake leaves the lines, with `ENSTATE` as step 1 leaves it. -/
theorem switchTableOfRegistersAndLines : Obligations.SwitchTableOfRegistersAndLines := by
  intro s t hline
  refine ⟨fun h => ?normal, fun h => ?special⟩
  case normal =>
    rw [exec_engine_lines h, exec_engine_enstate h, commandEvents, Lines.afterAll_switchEvents hline]
    refine ⟨rfl, rfl, fun hst => ?_, fun hst => ?_, fun hst hafter => ?_, fun hst hafter => ?_⟩ <;>
      simp [Engine.enstateAfter, driveAfterSwitch, enableDrive, enstateAfterSwitch, *]
  case special =>
    rw [exec_engine_lines h, exec_engine_enstate h, commandEvents, Lines.afterAll_switchEvents hline]
    refine ⟨rfl, rfl, rfl, fun hst hafter => if_pos ⟨hline, hst, hafter⟩, fun hkept => if_neg ?_⟩
    rintro ⟨-, hst, hafter⟩
    simp [hst, hafter] at hkept

end Sys2Proof.Proofs
end

section
/-! The legal event orders: each check of a list of events, how it goes over one list after another, and that the events
of every command pass it (R29, R112, R135 to R137). -/

namespace Sys2Proof.Machine

open Sys2Proof.Safety

/-! ### Kinds of events -/

/-- An event on one of the four lines, and no bus marker. -/
def isLineEvent : Event → Bool
  | .sdi _ | .clk _ | .le _ | .oe _ => true
  | .busBegin | .busEnd | .busClose | .busOpen => false

/-- Does the event start the PWM generator. -/
def startsPwm : Event → Bool
  | .oe v => isPwm (some v)
  | .sdi _ | .clk _ | .le _ | .busBegin | .busEnd | .busClose | .busOpen => false

/-! ### A steady enable line at every rising edge -/

theorem steadyAtEdges_append (l : Lines) (es fs : List Event) :
    steadyAtEdges l (es ++ fs) = (steadyAtEdges l es && steadyAtEdges (l.afterAll es) fs) := by
  induction es generalizing l with
  | nil => rfl
  | cons e es ih => rw [List.cons_append, steadyAtEdges, ih, steadyAtEdges, Lines.afterAll_cons, Bool.and_assoc]

/-- Where no edge rises there is nothing to keep steady. -/
theorem steadyAtEdges_of_no_rise {es : List Event} (h : es.all (fun e => !e.isRise) = true) (l : Lines) :
    steadyAtEdges l es = true := by
  induction es generalizing l with
  | nil => rfl
  | cons e es ih =>
    rw [List.all_cons, Bool.and_eq_true] at h
    obtain ⟨hrise, hes⟩ := h
    rw [steadyAtEdges, hrise, Bool.true_or, Bool.true_and, ih hes]

theorem isPwm_after {l : Lines} (hl : isPwm l.oe = false) {e : Event} (he : startsPwm e = false) :
    isPwm (l.after e).oe = false := by
  cases e
  case oe v => exact he
  all_goals exact hl

/-- A steady line on which nothing starts PWM stays steady. -/
theorem steadyAtEdges_of_no_pwm {es : List Event} (h : es.all (fun e => !startsPwm e) = true) {l : Lines}
    (hl : isPwm l.oe = false) : steadyAtEdges l es = true := by
  induction es generalizing l with
  | nil => rfl
  | cons e es ih =>
    rw [List.all_cons, Bool.and_eq_true, Bool.not_eq_true'] at h
    obtain ⟨he, hes⟩ := h
    rw [steadyAtEdges, hl, Bool.not_false, Bool.or_true, Bool.true_and, ih hes (isPwm_after hl he)]

theorem no_pwm_transferEvents (x : Xport) (b : Byte) :
    (transferEvents x b).all (fun e => !startsPwm e) = true := by
  cases x <;> rfl

/-- PWM drives the line only while `ENSTATE` says so; what suspends and restores it rests on that (R75). -/
def pwmOnlyEnabled (g : Engine) (l : Lines) : Prop := g.enstate ≠ .pwmEnabled → isPwm l.oe = false

theorem isPwm_ofLevel (v : Level) : isPwm (some (.ofLevel v)) = false := by
  cases v <;> rfl

theorem steadyAtEdges_byteEvents {g : Engine} {l : Lines} (hl : pwmOnlyEnabled g l) (b : Byte) :
    steadyAtEdges l (byteEvents g b) = true := by
  by_cases hpwm : g.enstate = .pwmEnabled
  · rw [byteEvents_of_pwm hpwm, List.append_assoc, List.singleton_append, steadyAtEdges, steadyAtEdges_append,
      steadyAtEdges_of_no_pwm (no_pwm_transferEvents ..) (isPwm_ofLevel _)]
    rfl
  · rw [byteEvents_of_not_pwm hpwm]
    exact steadyAtEdges_of_no_pwm (no_pwm_transferEvents ..) (hl hpwm)

theorem pwmOnlyEnabled_afterAll_byteEvents {g : Engine} {l : Lines} (hl : pwmOnlyEnabled g l) (b : Byte) :
    pwmOnlyEnabled g (l.afterAll (byteEvents g b)) := by
  intro hsteady
  rw [Lines.afterAll_byteEvents, heldEnable, if_neg hsteady]
  exact hl hsteady

theorem steadyAtEdges_bytes {g : Engine} {l : Lines} (hl : pwmOnlyEnabled g l) (bytes : List Byte) :
    steadyAtEdges l (bytes.flatMap (byteEvents g)) = true := by
  induction bytes generalizing l with
  | nil => rfl
  | cons b bytes ih =>
    rw [List.flatMap_cons, steadyAtEdges_append, steadyAtEdges_byteEvents hl,
      ih (pwmOnlyEnabled_afterAll_byteEvents hl b), Bool.and_self]

theorem steadyAtEdges_frameEvents {g : Engine} {l : Lines} (hl : pwmOnlyEnabled g l) (bytes : List Byte) :
    steadyAtEdges l (frameEvents g bytes) = true := by
  rw [frameEvents, steadyAtEdges_append, steadyAtEdges_bytes hl, steadyAtEdges_of_no_rise rfl, Bool.and_self]

/-! ### The handshake in three parts: up to P1, the pulses, and what comes after them -/

/-- Steps 1 and 2: PWM stopped, the bus released (R91, R92). -/
def switchOpening (g : Engine) : List Event :=
  (if g.enstate = .pwmEnabled then [.oe (.ofLevel g.params.suspendLevel)] else []) ++
    (if g.cfg.xport = .delegated then [.busClose] else [])

/-- Steps 3 to 6: the five pulses, or six (R93, R94). -/
def switchPulses (target : ChipMode) (g : Engine) : List Event :=
  [.oe .high] ++ pulseEvents ++ [.oe .low] ++ pulseEvents ++ [.oe .high] ++ pulseEvents ++
    selectorEvents g.params.specialExtraPulse target

/-- Step 7: a switch to normal restores the enable state (R95). -/
def restored (target : ChipMode) (g : Engine) : List Event := if target = .normal then restoreEvents g else []

/-- Steps 7 and 8: the enable state restored, the bus taken back (R91, R95). -/
def switchClosing (target : ChipMode) (g : Engine) : List Event :=
  restored target g ++ (if g.cfg.xport = .delegated then [.busOpen] else [])

theorem switchEvents_parts {g : Engine} (h : g.cfg.oep = true) (target : ChipMode) :
    switchEvents target g = switchOpening g ++ (switchPulses target g ++ switchClosing target g) := by
  simp only [switchEvents, if_pos h, switchOpening, switchPulses, switchClosing, restored, List.append_assoc]

/-- The opening is one enable event and one bus marker at most. -/
theorem switchOpening_all {p : Event → Bool} (g : Engine) (hoe : ∀ v, p (.oe v) = true)
    (hclose : p .busClose = true) : (switchOpening g).all p = true := by
  unfold switchOpening
  split <;> split <;> simp [hoe, hclose]

/-- What step 7 does is one event on the enable line at most. -/
theorem restored_all {p : Event → Bool} (target : ChipMode) (g : Engine) (hoe : ∀ v, p (.oe v) = true) :
    (restored target g).all p = true := by
  unfold restored restoreEvents
  split
  · split <;> simp [hoe]
  · rfl

/-- The closing is one enable event and one bus marker at most. -/
theorem switchClosing_all {p : Event → Bool} (target : ChipMode) (g : Engine) (hoe : ∀ v, p (.oe v) = true)
    (hopen : p .busOpen = true) : (switchClosing target g).all p = true := by
  rw [switchClosing, List.all_append, restored_all target g hoe, Bool.true_and]
  split <;> simp [hopen]

theorem no_rise_switchOpening (g : Engine) : (switchOpening g).all (fun e => !e.isRise) = true :=
  switchOpening_all g (fun _ => rfl) rfl

theorem no_rise_switchClosing (target : ChipMode) (g : Engine) :
    (switchClosing target g).all (fun e => !e.isRise) = true :=
  switchClosing_all target g (fun _ => rfl) rfl

/-- From P1 on the line is driven steady until the pulses are over (R136). -/
theorem steadyAtEdges_switchPulses (target : ChipMode) (g : Engine) (l : Lines) :
    steadyAtEdges l (switchPulses target g) = true := by
  rw [switchPulses]
  cases target <;> cases g.params.specialExtraPulse <;> rfl

theorem steadyAtEdges_switchEvents {g : Engine} (h : g.cfg.oep = true) (target : ChipMode) (l : Lines) :
    steadyAtEdges l (switchEvents target g) = true := by
  rw [switchEvents_parts h, steadyAtEdges_append, steadyAtEdges_append, steadyAtEdges_switchPulses,
    steadyAtEdges_of_no_rise (no_rise_switchOpening g), steadyAtEdges_of_no_rise (no_rise_switchClosing ..)]
  rfl

/-! ### The bus handed over in order -/

/-- What comes after a legal list starts with no transaction open and the bus owned as between commands. -/
theorem busLegal_append {x : Xport} {own inTransaction : Bool} {es : List Event}
    (h : busLegal x own inTransaction es = true) (fs : List Event) :
    busLegal x own inTransaction (es ++ fs) = busLegal x (decide (x = .delegated)) false fs := by
  induction es generalizing own inTransaction with
  | nil =>
    rw [busLegal, Bool.and_eq_true, Bool.not_eq_true', decide_eq_true_eq] at h
    obtain ⟨hclosed, hown⟩ := h
    rw [List.nil_append, hclosed, hown]
  | cons e es ih =>
    cases e <;>
    · rw [busLegal, Bool.and_eq_true] at h
      obtain ⟨he, hes⟩ := h
      rw [List.cons_append, busLegal, ih hes, he, Bool.true_and]

/-- Outside transactions the line events of a list pass, as long as somebody drives the data line and the clock. -/
theorem busLegal_lineEvents {x : Xport} {own : Bool} (hdriver : (driverOf x own false).isSome = true)
    {es : List Event} (h : es.all isLineEvent = true) (fs : List Event) :
    busLegal x own false (es ++ fs) = busLegal x own false fs := by
  induction es with
  | nil => rfl
  | cons e es ih =>
    rw [List.all_cons, Bool.and_eq_true] at h
    obtain ⟨he, hes⟩ := h
    cases e
    case sdi | clk | le | oe => simp [busLegal, hdriver, ih hes]
    all_goals exact absurd he Bool.false_ne_true

/-- A byte goes out in one transaction, or with the engine as the driver (R29, R69). -/
theorem busLegal_byteEvents (g : Engine) (b : Byte) :
    busLegal g.cfg.xport (decide (g.cfg.xport = .delegated)) false (byteEvents g b) = true := by
  by_cases hpwm : g.enstate = .pwmEnabled
  · rw [byteEvents_of_pwm hpwm]
    cases g.cfg.xport <;> rfl
  · rw [byteEvents_of_not_pwm hpwm]
    cases g.cfg.xport <;> rfl

theorem busLegal_nil (x : Xport) : busLegal x (decide (x = .delegated)) false [] = true := by
  simp [busLegal]

theorem busLegal_latchEvents (x : Xport) : busLegal x (decide (x = .delegated)) false latchEvents = true := by
  cases x <;> rfl

theorem busLegal_frameEvents (g : Engine) (bytes : List Byte) :
    busLegal g.cfg.xport (decide (g.cfg.xport = .delegated)) false (frameEvents g bytes) = true := by
  rw [frameEvents]
  induction bytes with
  | nil => exact busLegal_latchEvents _
  | cons b bytes ih => rw [List.flatMap_cons, List.append_assoc, busLegal_append (busLegal_byteEvents g b), ih]

theorem line_switchPulses (target : ChipMode) (g : Engine) : (switchPulses target g).all isLineEvent = true := by
  rw [switchPulses]
  cases target <;> cases g.params.specialExtraPulse <;> rfl

/-- Stopping PWM does not touch the bus. -/
theorem busLegal_suspend (x : Xport) (own : Bool) (pwm : Prop) [Decidable pwm] (v : OeDrive) (fs : List Event) :
    busLegal x own false ((if pwm then [.oe v] else []) ++ fs) = busLegal x own false fs := by
  split <;> rfl

/-- Under the emulated transport a handshake has no bus marker; under the delegated one its pulses lie between
`BUS_CLOSE` and `BUS_OPEN`, and the engine drives them (R29, R91). -/
theorem busLegal_switchEvents {g : Engine} (h : g.cfg.oep = true) (target : ChipMode) :
    busLegal g.cfg.xport (decide (g.cfg.xport = .delegated)) false (switchEvents target g) = true := by
  have hpulses := line_switchPulses target g
  have hrestored : (restored target g).all isLineEvent = true := restored_all target g fun _ => rfl
  have hengine (x : Xport) : (driverOf x false false).isSome = true := by cases x <;> rfl
  have hpasses (x : Xport) (fs : List Event) :
      busLegal x false false (switchPulses target g ++ (restored target g ++ fs)) = busLegal x false false fs := by
    rw [busLegal_lineEvents (hengine x) hpulses, busLegal_lineEvents (hengine x) hrestored]
  rw [switchEvents_parts h, switchOpening, switchClosing, List.append_assoc, busLegal_suspend]
  cases g.cfg.xport
  case emulated => exact (hpasses .emulated []).trans rfl
  case delegated => exact (hpasses .delegated [.busOpen]).trans rfl

/-! ### The latch line -/

theorem latchAlternates_append {le : Level} {es : List Event} (h : latchAlternates le es = true) (fs : List Event) :
    latchAlternates le (es ++ fs) = latchAlternates .low fs := by
  induction es generalizing le with
  | nil =>
    rw [latchAlternates, decide_eq_true_eq] at h
    rw [List.nil_append, h]
  | cons e es ih =>
    cases e
    case le v => cases v <;> simp_all [latchAlternates]
    all_goals exact ih h

theorem latchAlternates_of_no_latch {es : List Event} (h : es.all (fun e => !isLatchEvent e) = true) (le : Level)
    (fs : List Event) : latchAlternates le (es ++ fs) = latchAlternates le fs := by
  induction es with
  | nil => rfl
  | cons e es ih =>
    rw [List.all_cons, Bool.and_eq_true] at h
    obtain ⟨he, hes⟩ := h
    cases e
    case le v => exact absurd he Bool.false_ne_true
    all_goals exact ih hes

theorem latchClear_of_no_latch {es : List Event} (h : es.all (fun e => !isLatchEvent e) = true) (fs : List Event) :
    latchClear .low (es ++ fs) = latchClear .low fs := by
  induction es with
  | nil => rfl
  | cons e es ih =>
    rw [List.all_cons, Bool.and_eq_true] at h
    obtain ⟨he, hes⟩ := h
    cases e
    case le v => exact absurd he Bool.false_ne_true
    case clk v => cases v <;> exact ih hes
    all_goals exact ih hes

/-- No latch event falls into a byte (R82). -/
theorem no_latch_byteEvents (g : Engine) (b : Byte) :
    (byteEvents g b).all (fun e => !isLatchEvent e) = true := by
  by_cases hpwm : g.enstate = .pwmEnabled
  · rw [byteEvents_of_pwm hpwm]
    cases g.cfg.xport <;> rfl
  · rw [byteEvents_of_not_pwm hpwm]
    cases g.cfg.xport <;> rfl

theorem no_latch_bytes (g : Engine) (bytes : List Byte) :
    (bytes.flatMap (byteEvents g)).all (fun e => !isLatchEvent e) = true := by
  induction bytes with
  | nil => rfl
  | cons b bytes ih => rw [List.flatMap_cons, List.all_append, no_latch_byteEvents, ih, Bool.and_self]

theorem latchAlternates_frameEvents (g : Engine) (bytes : List Byte) :
    latchAlternates .low (frameEvents g bytes) = true := by
  rw [frameEvents, latchAlternates_of_no_latch (no_latch_bytes g bytes)]
  rfl

theorem latchClear_frameEvents (g : Engine) (bytes : List Byte) : latchClear .low (frameEvents g bytes) = true := by
  rw [frameEvents, latchClear_of_no_latch (no_latch_bytes g bytes)]
  rfl

theorem no_latch_switchOpening (g : Engine) : (switchOpening g).all (fun e => !isLatchEvent e) = true :=
  switchOpening_all g (fun _ => rfl) rfl

theorem no_latch_switchClosing (target : ChipMode) (g : Engine) :
    (switchClosing target g).all (fun e => !isLatchEvent e) = true :=
  switchClosing_all target g (fun _ => rfl) rfl

theorem latchAlternates_switchPulses (target : ChipMode) (g : Engine) :
    latchAlternates .low (switchPulses target g) = true := by
  rw [switchPulses]
  cases target <;> cases g.params.specialExtraPulse <;> rfl

theorem latchAlternates_switchEvents {g : Engine} (h : g.cfg.oep = true) (target : ChipMode) :
    latchAlternates .low (switchEvents target g) = true := by
  rw [switchEvents_parts h, latchAlternates_of_no_latch (no_latch_switchOpening g),
    latchAlternates_append (latchAlternates_switchPulses target g), ← List.append_nil (switchClosing target g),
    latchAlternates_of_no_latch (no_latch_switchClosing target g)]
  rfl

/-- A switch to normal does not touch the latch. -/
theorem latchClear_switchEvents_normal {g : Engine} (h : g.cfg.oep = true) :
    latchClear .low (switchEvents .normal g) = true := by
  rw [switchEvents_parts h, latchClear_of_no_latch (no_latch_switchOpening g), latchClear_of_no_latch (by rfl),
    ← List.append_nil (switchClosing .normal g), latchClear_of_no_latch (no_latch_switchClosing .normal g)]
  rfl

/-! ### Over all commands -/

/-- The forms the events of a command can have. -/
theorem commandEvents_induction (P : List Event → Prop) (g : Engine) (i : Instr) (quiet : P [])
    (frame : ∀ bytes, P (frameEvents g bytes)) (drive : ∀ v, g.cfg.oep = true → P [.oe v])
    (switch : ∀ target, g.cfg.oep = true → (target = .special → i = .tospecial) → P (switchEvents target g)) :
    P (commandEvents g i) := by
  cases i
  case sendraw | sendchr | sendnum => exact frame _
  case latch => exact frame []
  case enable | disable | bright =>
    rw [commandEvents]
    split
    · next hline => exact drive _ hline
    · exact quiet
  case tonormal | tospecial =>
    rw [commandEvents]
    cases hline : g.cfg.oep
    · rw [switchEvents_absent hline]
      exact quiet
    · exact switch _ hline (by decide)
  all_goals exact quiet

theorem steadyAtEdges_commandEvents {g : Engine} {l : Lines} (hl : pwmOnlyEnabled g l) (i : Instr) :
    steadyAtEdges l (commandEvents g i) = true :=
  commandEvents_induction (fun es => steadyAtEdges l es = true) g i rfl (steadyAtEdges_frameEvents hl)
    (fun _ _ => steadyAtEdges_of_no_rise rfl l) (fun target hline _ => steadyAtEdges_switchEvents hline target l)

theorem busLegal_commandEvents (g : Engine) (i : Instr) :
    busLegal g.cfg.xport (decide (g.cfg.xport = .delegated)) false (commandEvents g i) = true :=
  commandEvents_induction (fun es => busLegal g.cfg.xport (decide (g.cfg.xport = .delegated)) false es = true) g i
    (busLegal_nil _) (busLegal_frameEvents g) (fun _ _ => busLegal_nil _)
    (fun target hline _ => busLegal_switchEvents hline target)

theorem latchAlternates_commandEvents (g : Engine) (i : Instr) : latchAlternates .low (commandEvents g i) = true :=
  commandEvents_induction (fun es => latchAlternates .low es = true) g i rfl (latchAlternates_frameEvents g)
    (fun _ _ => rfl) (fun target hline _ => latchAlternates_switchEvents hline target)

theorem latchClear_commandEvents (g : Engine) {i : Instr} (hi : i ≠ .tospecial) :
    latchClear .low (commandEvents g i) = true := by
  refine commandEvents_induction (fun es => latchClear .low es = true) g i rfl (latchClear_frameEvents g)
    (fun _ _ => rfl) fun target hline htarget => ?_
  cases target
  case normal => exact latchClear_switchEvents_normal hline
  case special => exact absurd (htarget rfl) hi

/-- Without the line the enable state is `DISABLED`, and then no byte and no handshake drives the line. -/
theorem no_enable_commandEvents {g : Engine} (habsent : g.cfg.oep = false) (hst : g.enstate = .disabled) (i : Instr) :
    (commandEvents g i).all (fun e => !isEnableEvent e) = true := by
  have hbyte (b : Byte) : (byteEvents g b).all (fun e => !isEnableEvent e) = true := by
    rw [byteEvents_of_not_pwm (by rw [hst]; decide)]
    cases g.cfg.xport <;> rfl
  have hframe (bytes : List Byte) : (frameEvents g bytes).all (fun e => !isEnableEvent e) = true := by
    rw [frameEvents]
    induction bytes with
    | nil => rfl
    | cons b bytes ih => rw [List.flatMap_cons, List.append_assoc, List.all_append, hbyte, ih, Bool.and_self]
  exact commandEvents_induction (fun es => es.all (fun e => !isEnableEvent e) = true) g i rfl hframe
    (fun _ hline => absurd hline (ne_true_of_eq_false habsent))
    (fun _ hline => absurd hline (ne_true_of_eq_false habsent))

/-- Between commands PWM drives the line only in `PWM_ENABLED`. -/
theorem pwmOnlyEnabled_of_idleInv {s : State} (hs : IdleInv s) : pwmOnlyEnabled s.engine s.engine.lines := by
  intro hsteady
  cases hline : s.engine.cfg.oep
  case false => rw [(hs.noEnableLine hline).1]; rfl
  case true =>
    obtain hoe | ⟨hoe, -⟩ := hs.enableLine hline
    · rw [hoe, enableDrive]
      cases hst : s.engine.enstate
      case pwmEnabled => exact absurd hst hsteady
      all_goals rfl
    · rw [hoe]
      rfl

/-- Every command keeps the whole trace legal. -/
theorem exec_keeps_traceSafe {i : Instr} {s t : State} (hs : IdleInv s) (hsafe : TraceSafe s)
    (h : exec i s = .next t) : TraceSafe t := by
  have hcfg := exec_engine_cfg h
  have htrace := exec_trace h
  constructor
  case steady =>
    rw [hcfg, htrace, steadyAtEdges_append, hsafe.steady, ← hs.linesFromTrace,
      steadyAtEdges_commandEvents (pwmOnlyEnabled_of_idleInv hs) i, Bool.and_self]
  case bus => rw [hcfg, htrace, busLegal_append hsafe.bus, busLegal_commandEvents]
  case latch => rw [htrace, latchAlternates_append hsafe.latch, latchAlternates_commandEvents]

/-- An empty trace is legal. -/
theorem traceSafe_of_empty {s : State} (h : s.engine.trace = []) : TraceSafe s := by
  constructor <;> rw [h]
  case steady | latch => rfl
  case bus => exact busLegal_nil _

/-! ### How many events -/

theorem transferEvents_length (x : Xport) (b : Byte) : (transferEvents x b).length = transferCount x := by
  cases x <;> rfl

theorem byteEvents_length (g : Engine) (b : Byte) :
    (byteEvents g b).length = transferCount g.cfg.xport + suspendCount g.enstate := by
  by_cases hpwm : g.enstate = .pwmEnabled
  · simp [byteEvents_of_pwm hpwm, transferEvents_length, suspendCount, hpwm]
  · simp [byteEvents_of_not_pwm hpwm, transferEvents_length, suspendCount, hpwm]

theorem frameEvents_length (g : Engine) (bytes : List Byte) :
    (frameEvents g bytes).length =
      bytes.length * (transferCount g.cfg.xport + suspendCount g.enstate) + 2 := by
  rw [frameEvents, List.length_append]
  congr 1
  induction bytes with
  | nil => simp
  | cons b bytes ih => rw [List.flatMap_cons, List.length_append, byteEvents_length, ih, List.length_cons]; ring

theorem frame_length (n : Nat) (f : Nat → Byte) : ((List.range n).reverse.map f).length = n := by
  rw [List.length_map, List.length_reverse, List.length_range]

theorem numFrame_length (n : Nat) (num : BitVec 16) : (numFrame n num).length = min n 2 := by
  match n with
  | 0 | 1 => rfl
  | n + 2 => rw [numFrame_of_two_le (by omega), Nat.min_eq_right (by omega)]; rfl

theorem optional_length (c : Prop) [Decidable c] (es : List Event) :
    (if c then es else []).length = countIf c es.length := by
  by_cases h : c <;> simp [countIf, h]

theorem restoreEvents_length (g : Engine) : (restoreEvents g).length = countIf (g.enstate ≠ .disabled) 1 := by
  unfold restoreEvents
  split <;> simp [countIf, *]

theorem countIf_eq_mul (c : Bool) (k : Nat) : countIf c k = c.toNat * k := by
  cases c <;> simp [countIf]

theorem countIf_false (k : Nat) : countIf false k = 0 := rfl

theorem switchEvents_normal_length (g : Engine) : (switchEvents .normal g).length = eventCount g .tonormal := by
  cases hline : g.cfg.oep
  case false => rw [switchEvents_absent hline, eventCount, hline, countIf_false, List.length_nil]
  case true =>
    simp only [switchEvents_normal_of_line hline, List.length_append, optional_length, restoreEvents_length,
      List.length_cons, List.length_nil, eventCount, hline, countIf_eq_mul,
      Bool.toNat_true, Nat.one_mul]
    omega

theorem switchEvents_special_length (g : Engine) : (switchEvents .special g).length = eventCount g .tospecial := by
  cases hline : g.cfg.oep
  case false => rw [switchEvents_absent hline, eventCount, hline, countIf_false, List.length_nil]
  case true =>
    simp only [switchEvents_special_of_line hline, List.length_append, optional_length, Bool.decide_eq_true,
      List.length_cons, List.length_nil, eventCount, hline, countIf_eq_mul,
      Bool.toNat_true, Nat.one_mul]
    omega

/-- The count of R144 is the number of the command's events. -/
theorem commandEvents_length (g : Engine) (i : Instr) : (commandEvents g i).length = eventCount g i := by
  cases i
  case sendraw | sendchr => rw [commandEvents, frameEvents_length, eventCount]; congr; exact frame_length ..
  case sendnum num => rw [commandEvents, frameEvents_length, numFrame_length]; rfl
  case enable | disable | bright => cases h : g.cfg.oep <;> simp [commandEvents, eventCount, countIf, h]
  case tonormal => exact switchEvents_normal_length g
  case tospecial => exact switchEvents_special_length g
  all_goals rfl

theorem countIf_le (c : Bool) (k : Nat) : countIf c k ≤ k := by
  cases c
  · exact Nat.zero_le k
  · exact Nat.le_refl k

/-- One byte is at most 28 events: a delegated transfer, suspended and restored. -/
theorem byteCount_le (g : Engine) : transferCount g.cfg.xport + suspendCount g.enstate ≤ 28 := by
  cases g.cfg.xport <;> cases g.enstate <;> decide

theorem eventCount_le {g : Engine} (hn : g.cfg.n ≤ 254) (i : Instr) : eventCount g i ≤ 7114 := by
  have hframe {k : Nat} (hk : k ≤ 254) : k * (transferCount g.cfg.xport + suspendCount g.enstate) + 2 ≤ 7114 :=
    Nat.add_le_add_right (Nat.mul_le_mul hk (byteCount_le g)) 2
  cases i
  case sendraw | sendchr => exact hframe hn
  case sendnum num => exact hframe (by omega)
  case enable | disable | bright => exact (countIf_le _ _).trans (by decide)
  case tonormal =>
    have hpwm := countIf_le (g.enstate = .pwmEnabled) 1
    have hrestore := countIf_le (g.enstate ≠ .disabled) 1
    have hbus := countIf_le (g.cfg.xport = .delegated) 2
    exact (countIf_le _ _).trans (by omega)
  case tospecial =>
    have hpwm := countIf_le (g.enstate = .pwmEnabled) 1
    have hbus := countIf_le (g.cfg.xport = .delegated) 2
    have hextra := countIf_le g.params.specialExtraPulse 2
    exact (countIf_le _ _).trans (by omega)
  case latch => exact (by decide : 2 ≤ 7114)
  all_goals exact Nat.zero_le _

/-- The longest chain, under the delegated transport and with the enable line. -/
def State.longestDelegated : State := .powerOn ⟨254, .delegated, true⟩ Config.defaultParams

end Sys2Proof.Machine

namespace Sys2Proof.Proofs

open Sys2Proof.Machine Sys2Proof.Safety

/-- Settles O9: a reset empties the trace, a command appends a legal list, the idle engine keeps it. -/
theorem stepKeepsTheTraceLegal : Obligations.StepKeepsTheTraceLegal := by
  intro s t hs hsafe hstep
  obtain rfl | ⟨i, u, hexec, rfl, -⟩ | rfl := step_cases hstep
  · exact traceSafe_of_empty rfl
  · exact { exec_keeps_traceSafe hs hsafe hexec with }
  · exact hsafe

/-- Settles O8: no event has been emitted yet. -/
theorem traceSafetyHoldsAtPowerOn : Obligations.TraceSafetyHoldsAtPowerOn :=
  fun _ _ => traceSafe_of_empty rfl

/-- Settles O35: the bytes of the frame, none of which touches the latch. -/
theorem oneLatchPulseEndsEveryFrame : Obligations.OneLatchPulseEndsEveryFrame := by
  intro s t i count hframe h
  have hbytes : ∃ bytes, bytes.length = count ∧ commandEvents s.engine i = frameEvents s.engine bytes := by
    obtain ⟨rfl | rfl, rfl⟩ | ⟨⟨num, rfl⟩, rfl⟩ := hframe
    · exact ⟨_, frame_length .., rfl⟩
    · exact ⟨_, frame_length .., rfl⟩
    · exact ⟨_, numFrame_length .., rfl⟩
  obtain ⟨bytes, hlength, hevents⟩ := hbytes
  refine ⟨bytes, hlength, ?_, no_latch_bytes s.engine bytes⟩
  rw [exec_trace h, hevents, frameEvents, List.append_assoc, latchEvents]

/-- Settles O53: the invariant describes the lines from which the command's events start. -/
theorem enableLineIsSteadyAtEveryEdge : Obligations.EnableLineIsSteadyAtEveryEdge :=
  fun i _ _ hs h => ⟨_, exec_trace h, steadyAtEdges_commandEvents (pwmOnlyEnabled_of_idleInv hs) i⟩

/-- Settles O54: a frame byte by byte, a handshake by its three parts. -/
theorem busIsHandedOverInOrder : Obligations.BusIsHandedOverInOrder :=
  fun i s _ _ h => ⟨_, exec_trace h, busLegal_commandEvents s.engine i⟩

/-- Settles O55: latch events stand at the end of a frame and in P4 of a switch to special only. -/
theorem forbiddenLatchFormsAreNeverEmitted : Obligations.ForbiddenLatchFormsAreNeverEmitted :=
  fun i s _ _ h =>
    ⟨_, exec_trace h, latchAlternates_commandEvents s.engine i, fun hi => latchClear_commandEvents s.engine hi⟩

/-- Settles O56: without the line the invariant leaves `ENSTATE` at `DISABLED` only. -/
theorem noEnableEventWithoutTheLine : Obligations.NoEnableEventWithoutTheLine :=
  fun i _ _ hs habsent h =>
    ⟨_, exec_trace h, no_enable_commandEvents habsent (hs.noEnableLine habsent).2 i⟩

/-- Settles O57: the longest frame is reached on the longest chain under PWM, after `BRIGHT`. -/
theorem eventCountsFollowTheTable : Obligations.EventCountsFollowTheTable := by
  refine ⟨fun i s t h => ?count, fun i g hn => eventCount_le hn i, ?longest⟩
  case count => rw [exec_trace h, List.length_append, commandEvents_length]
  case longest =>
    obtain ⟨t, h⟩ := exec_completes (.bright 0) State.longestDelegated
    have hboot : IdleInv State.longestDelegated := idleInv_of_afterReset rfl (Chain.powerOn_length ..) (Nat.le_refl 0)
    refine ⟨.sendraw, t, exec_keeps_idleInv hboot h, ?_⟩
    rw [eventCount, exec_engine_cfg h, exec_engine_enstate h]
    rfl

end Sys2Proof.Proofs
end

section
/-! Reset over a running machine and the step of a word (R31, R130 to R132), the frame buffer's canonical form (R35),
and the words of a command on a byte-wide link (R42). -/

namespace Sys2Proof.Machine

open Sys2Proof.Safety

/-! ### The chain at power-on -/

/-- Each chip at power-on, whatever the position. -/
theorem Chain.powerOn_getElem? {n k : Nat} (hk : k < n) (m : ChipMode) :
    (Chain.powerOn n m).chips[k]? = some .unknown :=
  List.getElem?_replicate_of_lt hk

/-! ### Writing an entry twice -/

theorem Memory.erase_of_no_index {m : Memory} {a : Nat} (h : ∀ c ∈ m, c.1 ≠ a) : m.erase a = m := by
  induction m with
  | nil => rfl
  | cons c m ih =>
    obtain ⟨k, v⟩ := c
    rw [Memory.erase_cons, if_neg (h _ List.mem_cons_self), ih fun c hc => h c (List.mem_cons_of_mem _ hc)]

theorem Memory.erase_insert {m : Memory} {a : Nat} (h : ∀ c ∈ m, c.1 ≠ a) (v : Byte) :
    (m.insert a v).erase a = m := by
  induction m with
  | nil => exact if_pos rfl
  | cons c m ih =>
    obtain ⟨k, w⟩ := c
    have hk : k ≠ a := h _ List.mem_cons_self
    have hm : ∀ c ∈ m, c.1 ≠ a := fun c hc => h c (List.mem_cons_of_mem _ hc)
    rw [Memory.insert_cons]
    split
    · rw [Memory.erase_cons, if_pos rfl, Memory.erase_of_no_index h]
    · rw [Memory.erase_cons, if_neg hk, ih hm]

/-- A second write to an entry takes the place of the first. -/
theorem Memory.write_write_same (m : Memory) (a : Nat) (v w : Byte) : (m.write a v).write a w = m.write a w := by
  have herase : (m.write a v).erase a = m.erase a := by
    rw [Memory.write]
    split
    · exact Memory.erase_of_no_index (Memory.erase_no_index m a)
    · exact Memory.erase_insert (Memory.erase_no_index m a) v
  rw [Memory.write, herase, ← Memory.write]

/-! ### The canonical form -/

/-- Below its first index a canonical buffer reads as after reset. -/
theorem Memory.read_below {lo a : Nat} {m : Memory} (h : Memory.wfFrom lo m = true) (ha : a < lo) : m.read a = 0 := by
  induction m generalizing lo with
  | nil => rfl
  | cons c m ih =>
    obtain ⟨k, v⟩ := c
    obtain ⟨hk, -, -, hm⟩ := (Memory.wfFrom_cons ..).mp h
    rw [Memory.read_cons, if_neg (by omega), ih hm (by omega)]

theorem Memory.read_head (k : Nat) (v : Byte) (m : Memory) : Memory.read ((k, v) :: m) k = v := if_pos rfl

/-- Two canonical buffers that read alike have the same first index. -/
theorem Memory.first_index_le {lo k k' : Nat} {v v' : Byte} {m m' : Memory}
    (h : Memory.wfFrom lo ((k, v) :: m) = true) (h' : Memory.wfFrom lo ((k', v') :: m') = true)
    (hread : ∀ a, Memory.read ((k, v) :: m) a = Memory.read ((k', v') :: m') a) : k' ≤ k := by
  obtain ⟨-, -, hv, -⟩ := (Memory.wfFrom_cons ..).mp h
  obtain ⟨-, hk', hv', hm'⟩ := (Memory.wfFrom_cons ..).mp h'
  by_contra hlt
  have hfrom := (Memory.wfFrom_cons ..).mpr ⟨Nat.le_refl k', hk', hv', hm'⟩
  have hbelow := Memory.read_below hfrom (Nat.lt_of_not_le hlt)
  exact hv (by rw [← hbelow, ← hread, Memory.read_head])

theorem Memory.eq_of_read_eq {lo : Nat} {m m' : Memory} (h : Memory.wfFrom lo m = true)
    (h' : Memory.wfFrom lo m' = true) (hread : ∀ a, m.read a = m'.read a) : m = m' := by
  induction m generalizing lo m' with
  | nil =>
    cases m' with
    | nil => rfl
    | cons c' m' =>
      obtain ⟨-, -, hv', -⟩ := (Memory.wfFrom_cons ..).mp h'
      exact absurd ((Memory.read_head ..).symm.trans (hread _).symm) hv'
  | cons c m ih =>
    cases m' with
    | nil =>
      obtain ⟨-, -, hv, -⟩ := (Memory.wfFrom_cons ..).mp h
      exact absurd ((Memory.read_head ..).symm.trans (hread _)) hv
    | cons c' m' =>
      obtain ⟨k, v⟩ := c
      obtain ⟨k', v'⟩ := c'
      obtain rfl : k = k' := Nat.le_antisymm (Memory.first_index_le h' h fun a => (hread a).symm)
        (Memory.first_index_le h h' hread)
      obtain rfl : v = v' := by rw [← Memory.read_head k v m, hread, Memory.read_head]
      obtain ⟨-, -, -, hm⟩ := (Memory.wfFrom_cons ..).mp h
      obtain ⟨-, -, -, hm'⟩ := (Memory.wfFrom_cons ..).mp h'
      rw [ih hm hm' fun a => ?_]
      by_cases ha : k = a
      · rw [Memory.read_below hm (by omega), Memory.read_below hm' (by omega)]
      · simpa only [Memory.read_cons, if_neg ha] using hread a

/-! ### A word on a byte-wide link -/

/-- The four bytes of a word, low byte first, are the word again. -/
theorem wordOfBytes_fields (w : Word) :
    wordOfBytes (w.extractLsb' 0 8) (w.extractLsb' 8 8) (w.extractLsb' 16 8) (w.extractLsb' 24 8) = w := by
  have hlow : (w.extractLsb' 0 8).setWidth 32 = w &&& 0x000000FF := by
    rw [← BitVec.shiftLeft_zero ((w.extractLsb' 0 8).setWidth 32), field_in_place]
    rfl
  rw [wordOfBytes, hlow, field_in_place, field_in_place, field_in_place, ← BitVec.and_or_distrib_left,
    ← BitVec.and_or_distrib_left, ← BitVec.and_or_distrib_left]
  exact BitVec.and_allOnes

theorem decode_fields (w : Word) (rest : List Byte) :
    decode (w.extractLsb' 0 8 :: w.extractLsb' 8 8 :: w.extractLsb' 16 8 :: w.extractLsb' 24 8 :: rest) =
      .ok (decodeWord w, rest) := by
  rw [decode, wordOfBytes_fields]

theorem decode_of_short {bytes : List Byte} (h : bytes.length < 4) : decode bytes = .error .truncated := by
  match bytes with
  | [] | [_] | [_, _] | [_, _, _] => rfl
  | _ :: _ :: _ :: _ :: _ => exact absurd h (by simp)

end Sys2Proof.Machine

namespace Sys2Proof.Proofs

open Sys2Proof.Machine Sys2Proof.Safety

/-- Settles O10: the decoder is a left inverse of the encoder, and the link carries the word whole. -/
theorem encodeThenDecodeGivesTheCommandBack : Obligations.EncodeThenDecodeGivesTheCommandBack := by
  refine fun i _ => ⟨decodeWord_encode i, fun rest => ?_⟩
  exact (decode_fields (encode i) rest).trans (by rw [decodeWord_encode])

/-- Settles O4: the reset sequence reads the inputs and the parameters, and resizes the chain to the length it has. -/
theorem repeatedResetKeepsOnlyTheChain : Obligations.RepeatedResetKeepsOnlyTheChain := by
  intro s s' t t' hrst hrst' hinputs hparams hlength hstep hstep'
  rw [step_rst s hrst] at hstep
  rw [step_rst s' hrst'] at hstep'
  cases hstep
  cases hstep'
  have hsame : clampChainLength s.host.inputs.chainLengthReq = s.chain.chips.length := by
    have hclamp := clampChainLength_cast s.host.inputs.chainLengthReq
    omega
  constructor
  · rw [State.applyReset_engine, State.applyReset_engine, hinputs, hparams]
  · rw [State.applyReset_chain, hsame, Chain.resize_same]

/-- Settles O5: every position of the chain holds the unknown chip. -/
theorem chainIsUnknownAtPowerOn : Obligations.ChainIsUnknownAtPowerOn := by
  intro i p
  refine ⟨rfl, Chain.powerOn_length .., fun k hk => ?_⟩
  have hchip : (State.powerOn i p).chain.chips[k]? = some .unknown := Chain.powerOn_getElem? hk _
  rw [srAt, outrAt, cfgrAt, hchip]
  exact ⟨rfl, rfl, rfl⟩

/-- Settles O15: the word is taken, its command executed, and the pointer moved on. -/
theorem stepRunsTheDecodedCommand : Obligations.StepRunsTheDecodedCommand := by
  rintro s t w i hrst hw rfl - hexec
  rw [step_word s w hrst hw, hexec, advanceOutcome_next]
  rfl

/-- Settles O21: the second write takes the place of the first, with the same value. -/
theorem bufwrIsIdempotent : Obligations.BufwrIsIdempotent := by
  intro idx byte s t h
  rw [exec_bufwr] at h ⊢
  cases h
  by_cases hidx : idx.toNat ≤ 253
  · rw [Engine.writeFb_of_entry hidx, Engine.writeFb_of_entry hidx, Memory.write_write_same]
  · rw [Engine.writeFb_of_no_entry (by omega), Engine.writeFb_of_no_entry (by omega)]

/-- Settles O22: index by index, the first index of both being the least that does not read as after reset. -/
theorem canonicalBuffersThatReadAlikeAreEqual : Obligations.CanonicalBuffersThatReadAlikeAreEqual :=
  fun _ _ => Memory.eq_of_read_eq

/-- Settles O13: each word's opcode names its row of the map, and its fields are the operands. -/
theorem specWordsDecodeToTheirCommands : Obligations.SpecWordsDecodeToTheirCommands := by
  refine ⟨?_, ?_, ?_, ?_, ?_, ?_, ?_, ?_, ?_⟩ <;> exact decodeWord_of_opcode rfl rfl

/-- Settles O14: the four bytes make up the word again, and fewer make up none. -/
theorem hostLinkSendsTheLowByteFirst : Obligations.HostLinkSendsTheLowByteFirst :=
  ⟨decode_fields, fun _ => decode_of_short⟩

end Sys2Proof.Proofs
end

section
/-! The chain byte by byte: eight edges shift it by a whole register (R102, R103), so that after a frame every shift
register holds the byte of its position (R104), and a latch pulse copies it (R105, R106). -/

namespace Sys2Proof.Machine

open Sys2Proof.Safety

/-! ### One byte -/

/-- A whole register enters the chain: each chip takes over the register before it. -/
def shiftRegisters (r : ChipByte) : List Chip → List Chip
  | [] => []
  | c :: cs => { c with sr := r } :: shiftRegisters c.sr cs

/-- Eight bits in turn are one register. -/
theorem shiftChips_eight (t0 t1 t2 t3 t4 t5 t6 t7 : ChipBit) (cs : List Chip) :
    shiftChips t7 (shiftChips t6 (shiftChips t5 (shiftChips t4 (shiftChips t3 (shiftChips t2 (shiftChips t1
      (shiftChips t0 cs))))))) = shiftRegisters ⟨t0, t1, t2, t3, t4, t5, t6, t7⟩ cs := by
  induction cs generalizing t0 t1 t2 t3 t4 t5 t6 t7 with
  | nil => rfl
  | cons c cs ih => exact congrArg (_ :: ·) (ih ..)

/-- The chain after a register has entered it. -/
def Chain.shifted (r : ChipByte) (c : Chain) : Chain := { c with chips := shiftRegisters r c.chips }

/-- One data bit and its clock pulse, with the latch low. -/
theorem Chain.observeAll_bitEvents (c : Chain) {l : Lines} (h : l.le = .low) (bit : Bool) :
    c.observeAll l (bitEvents bit) = { c with chips := shiftChips (.ofBool bit) c.chips } := by
  have hrise := Chain.observe_rise c (l.after (.sdi (if bit then .high else .low))) h
  calc c.observeAll l (bitEvents bit)
      = c.observe (l.after (.sdi (if bit then .high else .low))) (.clk .high) := rfl
    _ = { c with chips := shiftChips (.ofBool bit) c.chips } := by
      rw [hrise]
      cases bit <;> rfl

theorem Chain.observeAll_bits (c : Chain) {l : Lines} (h : l.le = .low) (bits : List Bool) :
    c.observeAll l (bits.flatMap bitEvents) =
      { c with chips := bits.foldl (fun cs bit => shiftChips (.ofBool bit) cs) c.chips } := by
  induction bits generalizing c l with
  | nil => rfl
  | cons bit bits ih =>
    have hle : (l.afterAll (bitEvents bit)).le = .low := h
    rw [List.flatMap_cons, Chain.observeAll_append, c.observeAll_bitEvents h, ih _ hle, List.foldl_cons]

theorem emulatedEvents_eq_bits (b : Byte) :
    emulatedEvents b = [b[0], b[1], b[2], b[3], b[4], b[5], b[6], b[7]].flatMap bitEvents := rfl

/-- The bits of a byte, bit 0 first, put the byte into the chain (R68, R102). -/
theorem Chain.observeAll_emulatedEvents (c : Chain) {l : Lines} (h : l.le = .low) (b : Byte) :
    c.observeAll l (emulatedEvents b) = c.shifted (.ofByte b) := by
  rw [emulatedEvents_eq_bits, c.observeAll_bits h, Chain.shifted]
  simp only [List.foldl_cons, List.foldl_nil, shiftChips_eight]
  rfl

/-- The bus markers around a transfer do nothing to the chain (R70). -/
theorem Chain.observeAll_delegatedEvents (c : Chain) (l : Lines) (b : Byte) :
    c.observeAll l (delegatedEvents b) = c.observeAll l (emulatedEvents b) := by
  rw [delegatedEvents, Chain.observeAll_append]
  rfl

theorem Chain.observeAll_transferEvents (c : Chain) {l : Lines} (h : l.le = .low) (x : Xport) (b : Byte) :
    c.observeAll l (transferEvents x b) = c.shifted (.ofByte b) := by
  cases x
  · exact c.observeAll_emulatedEvents h b
  · exact (c.observeAll_delegatedEvents l b).trans (c.observeAll_emulatedEvents h b)

/-- A byte, PWM suspended around it or not. -/
theorem Chain.observeAll_byteEvents (c : Chain) {l : Lines} (h : l.le = .low) (g : Engine) (b : Byte) :
    c.observeAll l (byteEvents g b) = c.shifted (.ofByte b) := by
  by_cases hpwm : g.enstate = .pwmEnabled
  · have hsuspended : (l.after (.oe (.ofLevel g.params.suspendLevel))).le = .low := h
    rw [byteEvents_of_pwm hpwm, Chain.observeAll_append]
    exact c.observeAll_transferEvents hsuspended _ b
  · rw [byteEvents_of_not_pwm hpwm]
    exact c.observeAll_transferEvents h _ b

theorem Lines.afterAll_byteEvents_le (l : Lines) (g : Engine) (b : Byte) :
    (l.afterAll (byteEvents g b)).le = l.le := by
  rw [Lines.afterAll_byteEvents]

/-! ### Several bytes, as lists of registers -/

theorem shiftRegisters_sr (r : ChipByte) (cs : List Chip) :
    (shiftRegisters r cs).map Chip.sr = (r :: cs.map Chip.sr).take cs.length := by
  induction cs generalizing r with
  | nil => rfl
  | cons c cs ih => rw [shiftRegisters, List.map_cons, ih]; rfl

/-- The other registers of a chip do not move. -/
theorem shiftRegisters_other {α : Type} {f : Chip → α} (hf : ∀ chip r, f { chip with sr := r } = f chip)
    (r : ChipByte) (cs : List Chip) : (shiftRegisters r cs).map f = cs.map f := by
  induction cs generalizing r with
  | nil => rfl
  | cons c cs ih => rw [shiftRegisters, List.map_cons, List.map_cons, ih, hf]

theorem take_append_take {α : Type} (n : Nat) (xs ys : List α) : (xs ++ ys.take n).take n = (xs ++ ys).take n := by
  rw [List.take_append, List.take_append, List.take_take, Nat.min_eq_left (Nat.sub_le ..)]

section
variable (c : Chain) {l : Lines} (h : l.le = .low) (g : Engine) (bytes : List Byte)
include h

/-- The bytes stand in the shift registers, the one sent last first; the old registers follow, as far as there are
chips. -/
theorem Chain.observeAll_bytes_sr :
    (c.observeAll l (bytes.flatMap (byteEvents g))).chips.map Chip.sr =
      ((bytes.map ChipByte.ofByte).reverse ++ c.chips.map Chip.sr).take c.chips.length := by
  induction bytes generalizing c l with
  | nil => simp
  | cons b bytes ih =>
    have hlength : (c.shifted (.ofByte b)).chips.length = c.chips.length := by
      rw [← c.observeAll_byteEvents h g b, Chain.observeAll_length]
    rw [List.flatMap_cons, Chain.observeAll_append, c.observeAll_byteEvents h,
      ih _ ((l.afterAll_byteEvents_le g b).trans h), hlength, Chain.shifted, shiftRegisters_sr, take_append_take,
      List.map_cons, List.reverse_cons, List.append_assoc, List.singleton_append]

theorem Chain.observeAll_bytes_other {α : Type} {f : Chip → α} (hf : ∀ chip r, f { chip with sr := r } = f chip) :
    (c.observeAll l (bytes.flatMap (byteEvents g))).chips.map f = c.chips.map f := by
  induction bytes generalizing c l with
  | nil => rfl
  | cons b bytes ih =>
    rw [List.flatMap_cons, Chain.observeAll_append, c.observeAll_byteEvents h,
      ih _ ((l.afterAll_byteEvents_le g b).trans h)]
    exact shiftRegisters_other hf ..

end

/-! ### One position -/

theorem srAt_eq (c : Chain) (k : Nat) : srAt c k = (c.chips.map Chip.sr)[k]? := List.getElem?_map.symm

theorem outrAt_eq (c : Chain) (k : Nat) : outrAt c k = (c.chips.map Chip.outr)[k]? := List.getElem?_map.symm

theorem cfgrAt_eq (c : Chain) (k : Nat) : cfgrAt c k = (c.chips.map Chip.cfgr)[k]? := List.getElem?_map.symm

section
variable (c : Chain) {l : Lines} (h : l.le = .low) (g : Engine) (bytes : List Byte) {k : Nat}
include h

/-- A position the bytes reach holds the byte sent that many before the last (R103). -/
theorem srAt_bytes_reached (hk : k < c.chips.length) (hreached : k < bytes.length) :
    srAt (c.observeAll l (bytes.flatMap (byteEvents g))) k =
      (bytes[bytes.length - 1 - k]?).map ChipByte.ofByte := by
  have hlength : k < ((bytes.map ChipByte.ofByte).reverse).length := by simpa using hreached
  rw [srAt_eq, c.observeAll_bytes_sr h, List.getElem?_take_of_lt hk, List.getElem?_append_left hlength,
    List.getElem?_reverse (by simpa using hreached), List.length_map, List.getElem?_map]

/-- A position beyond them holds what stood that many positions nearer the engine (R103). -/
theorem srAt_bytes_beyond (hk : k < c.chips.length) (hbeyond : bytes.length ≤ k) :
    srAt (c.observeAll l (bytes.flatMap (byteEvents g))) k = srAt c (k - bytes.length) := by
  have hlength : ((bytes.map ChipByte.ofByte).reverse).length ≤ k := by simpa using hbeyond
  rw [srAt_eq, c.observeAll_bytes_sr h, List.getElem?_take_of_lt hk, List.getElem?_append_right hlength,
    List.length_reverse, List.length_map, srAt_eq]

end

/-! ### The latch pulse and the frame -/

theorem srAt_latched (c : Chain) (k : Nat) : srAt c.latched k = srAt c k := by
  have hsr (chip : Chip) : (chip.latched c.mode).sr = chip.sr := by cases c.mode <;> rfl
  rw [srAt, Chain.latched, List.getElem?_map, Option.map_map]
  exact congrArg (Option.map · _) (funext hsr)

theorem latched_of_normal {c : Chain} (h : c.mode = .normal) (k : Nat) :
    outrAt c.latched k = srAt c k ∧ cfgrAt c.latched k = cfgrAt c k := by
  rw [outrAt, cfgrAt, Chain.latched, h, List.getElem?_map, Option.map_map, Option.map_map]
  exact ⟨rfl, rfl⟩

theorem latched_of_special {c : Chain} (h : c.mode = .special) (k : Nat) :
    cfgrAt c.latched k = srAt c k ∧ outrAt c.latched k = outrAt c k := by
  rw [outrAt, cfgrAt, Chain.latched, h, List.getElem?_map, Option.map_map, Option.map_map]
  exact ⟨rfl, rfl⟩

theorem Lines.afterAll_bytes_le (l : Lines) (g : Engine) (bytes : List Byte) :
    (l.afterAll (bytes.flatMap (byteEvents g))).le = l.le := by
  induction bytes generalizing l with
  | nil => rfl
  | cons b bytes ih => rw [List.flatMap_cons, Lines.afterAll_append, ih, Lines.afterAll_byteEvents_le]

/-- A frame is its bytes and then one latch pulse, for the chain too. -/
theorem Chain.observeAll_frameEvents (c : Chain) {l : Lines} (h : l.le = .low) (g : Engine) (bytes : List Byte) :
    c.observeAll l (frameEvents g bytes) = (c.observeAll l (bytes.flatMap (byteEvents g))).latched := by
  rw [frameEvents, Chain.observeAll_append, Chain.observeAll_latchEvents _ ((l.afterAll_bytes_le g bytes).trans h)]

/-- The byte of position `k` goes out `k` before the last (R40). -/
theorem frame_getElem? {n k : Nat} (hk : k < n) (f : Nat → Byte) :
    ((List.range n).reverse.map f)[n - 1 - k]? = some (f k) := by
  have hlast : n - 1 - k < (List.range n).length := by rw [List.length_range]; omega
  have hback : n - 1 - (n - 1 - k) = k := by omega
  rw [List.getElem?_map, List.getElem?_reverse hlast, List.length_range, hback, List.getElem?_range hk]
  rfl

/-- After a frame of one byte for each position, every chip the chain has holds its own. -/
theorem srAt_frame {c : Chain} {l : Lines} (h : l.le = .low) (g : Engine) (f : Nat → Byte) {k : Nat}
    (hk : k < c.chips.length) :
    srAt (c.observeAll l (((List.range c.chips.length).reverse.map f).flatMap (byteEvents g))) k =
      some (.ofByte (f k)) := by
  rw [srAt_bytes_reached c h g _ hk (by rwa [frame_length]), frame_length, frame_getElem? hk]
  rfl

end Sys2Proof.Machine

namespace Sys2Proof.Proofs

open Sys2Proof.Machine Sys2Proof.Safety

/-- Settles O30: the markers of a transaction do nothing to the chain, and between them stand the same events. -/
theorem transportsAreEqualAtTheChain : Obligations.TransportsAreEqualAtTheChain := by
  intro b c l
  refine ⟨(c.observeAll_delegatedEvents l b).symm, fun x => ⟨?_, ?_⟩⟩ <;> cases x <;> rfl

/-- Settles O47: the bytes enter the list of shift registers; the two other lists stand. -/
theorem bytesShiftThroughTheChain : Obligations.BytesShiftThroughTheChain := by
  intro g bytes l c hle k hk
  refine ⟨srAt_bytes_reached c hle g bytes hk, srAt_bytes_beyond c hle g bytes hk, ?_, ?_⟩
  · rw [outrAt_eq, c.observeAll_bytes_other hle _ _ fun _ _ => rfl, ← outrAt_eq]
  · rw [cfgrAt_eq, c.observeAll_bytes_other hle _ _ fun _ _ => rfl, ← cfgrAt_eq]

/-- Settles O48: the latch pulse at the end leaves the shift registers as the bytes of the frame left them. -/
theorem framesReachTheirChips : Obligations.FramesReachTheirChips := by
  intro s hle hlength
  have hsent (bytes : List Byte) (k : Nat) : srAt (sent s (frameEvents s.engine bytes)).chain k =
      srAt (s.chain.observeAll s.engine.lines (bytes.flatMap (byteEvents s.engine))) k := by
    rw [sent, s.chain.observeAll_frameEvents hle, srAt_latched]
  refine ⟨⟨_, exec_sendraw s, fun k hk => ?raw⟩, ⟨_, exec_sendchr s, fun k hk => ?chr⟩,
    fun num => ⟨_, exec_sendnum num s, fun hone => ?one, fun htwo => ?two⟩⟩
  case raw =>
    rw [hsent, rawFrame, ← hlength]
    exact srAt_frame hle _ _ (hlength ▸ hk)
  case chr =>
    rw [hsent, charFrame, ← hlength]
    exact srAt_frame hle _ (fun i => segmap (s.engine.fb.read i)) (hlength ▸ hk)
  case one =>
    rw [hsent, hone, numFrame_one]
    exact srAt_bytes_reached _ hle _ [_] (by omega) Nat.one_pos
  case two =>
    rw [numFrame_of_two_le htwo]
    refine ⟨?_, ?_, fun k hbeyond hk => ?_⟩ <;> rw [hsent]
    · exact srAt_bytes_reached _ hle _ [_, _] (by omega) Nat.two_pos
    · exact srAt_bytes_reached _ hle _ [_, _] (by omega) Nat.one_lt_two
    · exact srAt_bytes_beyond _ hle _ [_, _] (by omega) hbeyond

/-- Settles O49: a pulse latches every chip once; a frame in normal mode latches the registers its bytes left. -/
theorem latchCopiesByMode : Obligations.LatchCopiesByMode := by
  refine ⟨fun c l k hle => ?pulse, fun s t hle hlength hmode h k hk => ?frame⟩
  case pulse =>
    have hlatched : c.observeAll l [.le .high, .le .low] = c.latched := c.observeAll_latchEvents hle
    rw [hlatched]
    exact ⟨srAt_latched c k, rfl, fun hmode => latched_of_normal hmode k, fun hmode => latched_of_special hmode k⟩
  case frame =>
    cases (exec_sendraw s).symm.trans h
    obtain ⟨houtr, -⟩ := latched_of_normal ((Chain.observeAll_mode ..).trans hmode) k
    rw [sent, s.chain.observeAll_frameEvents hle, houtr, rawFrame, ← hlength]
    exact srAt_frame hle _ _ (hlength ▸ hk)

end Sys2Proof.Proofs
end

section
/-! The assembler: when a statement is accepted and what it then writes, its words read back by the decoder, and why a
line is refused (R63 to R65). -/

namespace Sys2Proof.Machine

open Sys2Proof.Safety

/-! ### Accepted and refused statements -/

theorem assemble_of_accepted {n : Nat} {a : AsmStmt} (h : a.error? n = none) :
    assemble n a = .ok { words := (asmInstrs a).map encode, warnings := asmWarnings a } := by
  rw [assemble, h]

theorem assemble_of_refused {n : Nat} {a : AsmStmt} {e : AsmError} (h : a.error? n = some e) :
    assemble n a = .error e := by
  rw [assemble, h]

/-- Whatever the assembler writes are the words of the statement's commands. -/
theorem words_of_assembled {n : Nat} {a : AsmStmt} {out : AsmOut} (h : assemble n a = .ok out) :
    out.words = (asmInstrs a).map encode := by
  cases herror : a.error? n with
  | none =>
    rw [assemble_of_accepted herror] at h
    cases h
    rfl
  | some e => cases (assemble_of_refused herror).symm.trans h

/-! ### Ranges and lengths -/

theorem rangeError_eq_none {max : Nat} {operands : List Nat} :
    rangeError max operands = none ↔ ∀ v ∈ operands, v ≤ max := by
  simp [rangeError]

theorem rangeError_of_exceeding {max : Nat} {operands : List Nat} (h : ∃ v ∈ operands, max < v) :
    rangeError max operands = some .operandOutOfRange := by
  obtain ⟨v, hv, hmax⟩ := h
  refine if_neg fun hall => ?_
  have hle := of_decide_eq_true (List.all_eq_true.mp hall v hv)
  omega

section
variable (n : Nat)

theorem bufwr_accepted {idx byte : Nat} (hidx : idx ≤ 255) (hbyte : byte ≤ 255) :
    (AsmStmt.bufwr idx byte).error? n = none :=
  rangeError_eq_none.mpr (List.forall_mem_cons.mpr ⟨hidx, List.forall_mem_singleton.mpr hbyte⟩)

theorem sendnum_accepted {num : Nat} (hnum : num ≤ 65535) : (AsmStmt.sendnum num).error? n = none :=
  rangeError_eq_none.mpr (List.forall_mem_singleton.mpr hnum)

theorem bright_accepted {level : Nat} (hlevel : level ≤ 255) : (AsmStmt.bright level).error? n = none :=
  rangeError_eq_none.mpr (List.forall_mem_singleton.mpr hlevel)

end

/-- A frame of an admitted length is refused for its bytes only. -/
theorem frameError_of_length {bytes : List Nat} (hmin : 1 ≤ bytes.length) (hmax : bytes.length ≤ 254) :
    frameError bytes = rangeError 255 bytes :=
  if_neg (by omega)

theorem frameError_of_bad_length {bytes : List Nat} (h : bytes.length = 0 ∨ 254 < bytes.length) :
    frameError bytes = some .frameLength :=
  if_pos h

section
variable {n : Nat} {bytes : List Nat}

/-- A shown frame of the chain's length is checked as a frame. -/
theorem showraw_error_of_length (h : bytes.length = n) :
    (AsmStmt.showraw bytes).error? n = frameError bytes :=
  if_neg (not_not.mpr h)

theorem showstr_error_of_length (h : bytes.length = n) :
    (AsmStmt.showstr bytes).error? n = frameError bytes :=
  if_neg (not_not.mpr h)

theorem showraw_error_of_bad_length (h : bytes.length ≠ n) :
    (AsmStmt.showraw bytes).error? n = some .showLength :=
  if_pos h

theorem showstr_error_of_bad_length (h : bytes.length ≠ n) :
    (AsmStmt.showstr bytes).error? n = some .showLength :=
  if_pos h

end

/-! ### The words -/

/-- An operand within the range of its field is written there as it is. -/
theorem operand_in_word {w v : Nat} (hw : w ≤ 32) (hv : v < 2 ^ w) :
    (BitVec.ofNat w v).setWidth 32 = BitVec.ofNat 32 v :=
  BitVec.setWidth_ofNat_of_le_of_lt hw hv

/-- A byte operand stands in the low half of `DATA`. -/
theorem byte_in_word {v : Nat} (hv : v ≤ 255) :
    ((BitVec.ofNat 8 v).setWidth 16).setWidth 32 = BitVec.ofNat 32 v := by
  rw [BitVec.setWidth_setWidth (by decide), operand_in_word (by decide) (by omega)]

theorem encode_bufwr {idx byte : Nat} (hidx : idx ≤ 255) (hbyte : byte ≤ 255) :
    encode (.bufwr (BitVec.ofNat 8 idx) (BitVec.ofNat 8 byte)) =
      0x10000000#32 ||| BitVec.ofNat 32 idx <<< 16 ||| BitVec.ofNat 32 byte := by
  have hopc : (0x1 : BitVec 4).setWidth 32 <<< 28 = 0x10000000#32 := by decide
  rw [encode, Instr.data, byte_in_word hbyte, Instr.idx, operand_in_word (by decide) (by omega), Instr.opc, hopc]

theorem encode_sendnum {num : Nat} (hnum : num ≤ 65535) :
    encode (.sendnum (BitVec.ofNat 16 num)) = 0x40000000#32 ||| BitVec.ofNat 32 num := by
  have hopc : (0x4 : BitVec 4).setWidth 32 <<< 28 ||| (0 : BitVec 8).setWidth 32 <<< 16 = 0x40000000#32 := by decide
  rw [encode, Instr.data, operand_in_word (by decide) (by omega), Instr.opc, Instr.idx, hopc]

theorem encode_bright {level : Nat} (hlevel : level ≤ 255) :
    encode (.bright (BitVec.ofNat 8 level)) = 0x80000000#32 ||| BitVec.ofNat 32 level := by
  have hopc : (0x8 : BitVec 4).setWidth 32 <<< 28 ||| (0 : BitVec 8).setWidth 32 <<< 16 = 0x80000000#32 := by decide
  rw [encode, Instr.data, byte_in_word hlevel, Instr.opc, Instr.idx, hopc]

theorem decode_encoded (is : List Instr) : (is.map encode).map decodeWord = is := by
  rw [List.map_map, funext decodeWord_encode (f := decodeWord ∘ encode) (g := id), List.map_id]

/-- The words of an accepted statement decode to its commands. -/
theorem decode_assembled {n : Nat} {a : AsmStmt} (h : a.error? n = none) :
    (assemble n a).map (fun out => out.words.map decodeWord) = .ok (asmInstrs a) := by
  rw [assemble_of_accepted h, Except.map, decode_encoded]

/-- A frame is one `BUFWR` for each byte, at its place (R64). -/
theorem frameInstrs_eq (k : Nat) (bytes : List Nat) :
    frameInstrs k bytes =
      (bytes.zipIdx k).map fun (b, k) => Instr.bufwr (BitVec.ofNat 8 k) (BitVec.ofNat 8 b) := by
  induction bytes generalizing k with
  | nil => rfl
  | cons b bytes ih => rw [frameInstrs, ih, List.zipIdx_cons, List.map_cons]

theorem opc_of_mem_frameInstrs {i : Instr} {k : Nat} {bytes : List Nat} (h : i ∈ frameInstrs k bytes) :
    i.opc = 0x1 := by
  rw [frameInstrs_eq, List.mem_map] at h
  obtain ⟨_, -, rfl⟩ := h
  rfl

/-- Every statement but `NOP` stands for commands that are no reserved opcodes. -/
theorem opc_of_mem_asmInstrs {a : AsmStmt} (ha : a ≠ .nop) {i : Instr} (h : i ∈ asmInstrs a) :
    0x1 ≤ i.opc.toNat ∧ i.opc.toNat ≤ 0xA := by
  cases a
  case nop => exact absurd rfl ha
  case frame => rw [opc_of_mem_frameInstrs h]; decide
  case showraw | showstr =>
    obtain h | h := List.mem_append.mp h
    · rw [opc_of_mem_frameInstrs h]; decide
    · rw [List.mem_singleton.mp h]; decide
  all_goals
    rw [List.mem_singleton.mp h, Instr.opc]
    decide

/-! ### Lines -/

/-- The table the reader looks up spells the mnemonics of the spec and no others. -/
theorem readMnemonic_of_unknown {cs : List Char} (h : cs ∉ mnemonics) : readMnemonic cs = none := by
  refine List.lookup_eq_none_iff.mpr fun p hp => ?_
  rw [bne_iff_ne]
  rintro rfl
  exact h (List.mem_map_of_mem hp)

/-- A line that spells no mnemonic is refused for that, whatever follows (R65). -/
theorem readLine_of_unknown {line : List Char} (htext : mnemonicText (lineText line) ≠ [])
    (h : readMnemonic (mnemonicText (lineText line)) = none) : readLine line = .error .unknownMnemonic := by
  unfold readLine
  split
  · next hempty => exact absurd hempty htext
  · next hcons => rw [← hcons, h]

/-- A line that spells a mnemonic is read as its statement. -/
theorem readLine_of_mnemonic {line : List Char} {m : AsmMnemonic}
    (h : readMnemonic (mnemonicText (lineText line)) = some m) :
    readLine line = (buildStmt m (operandTexts (operandText (lineText line)))).map some := by
  unfold readLine
  split
  · next hempty =>
    rw [hempty] at h
    cases h
  · next hcons => rw [← hcons, h]; rfl

theorem buildStmt_of_wrong_count {m : AsmMnemonic} {count : Nat} (hcount : operandCount m = some count)
    {operands : List (List Char)} (h : operands.length ≠ count) :
    buildStmt m operands = .error .wrongOperandCount := by
  cases m <;> cases hcount
  case bufwr =>
    match operands with
    | [] | [_] | _ :: _ :: _ :: _ => rfl
    | [_, _] => exact absurd rfl h
  case sendnum | bright | showstr | shownum =>
    match operands with
    | [] | _ :: _ :: _ => rfl
    | [_] => exact absurd rfl h
  all_goals
    match operands with
    | _ :: _ => rfl
    | [] => exact absurd rfl h

theorem assembleLine_of_refused {line : List Char} {e : AsmError} (h : readLine line = .error e) (n : Nat) :
    assembleLine n line = .error e := by
  rw [assembleLine, h]

end Sys2Proof.Machine

namespace Sys2Proof.Proofs

open Sys2Proof.Machine Sys2Proof.Safety

/-- Settles O58: each form is accepted, and its fields are the operands. -/
theorem assemblerWritesTheWordsOfItsForms : Obligations.AssemblerWritesTheWordsOfItsForms := by
  intro n
  refine ⟨fun idx byte hidx hbyte => ?bufwr, rfl, rfl, fun num hnum => ?sendnum, rfl, rfl, rfl,
    fun level hlevel => ?bright, rfl, rfl⟩
  case bufwr =>
    rw [assemble_of_accepted (bufwr_accepted n hidx hbyte), ← encode_bufwr hidx hbyte]
    rfl
  case sendnum =>
    rw [assemble_of_accepted (sendnum_accepted n hnum), ← encode_sendnum hnum]
    rfl
  case bright =>
    rw [assemble_of_accepted (bright_accepted n hlevel), ← encode_bright hlevel]
    rfl

/-- Settles O59: an accepted frame is read back as its writes, and a shown frame as its writes and its command. -/
theorem pseudoInstructionsExpand : Obligations.PseudoInstructionsExpand := by
  refine ⟨fun n => rfl, fun n num => rfl, fun n bytes hmin hmax hbytes => ?_⟩
  have hframe : frameError bytes = none :=
    (frameError_of_length hmin hmax).trans (rangeError_eq_none.mpr hbytes)
  refine ⟨?_, fun hlength => ?_, fun hlength => ?_⟩
  · rw [decode_assembled (a := .frame bytes) hframe, asmInstrs, frameInstrs_eq]
  · rw [decode_assembled ((showraw_error_of_length hlength).trans hframe), asmInstrs, frameInstrs_eq]
  · rw [decode_assembled ((showstr_error_of_length hlength).trans hframe), asmInstrs, frameInstrs_eq]

/-- Settles O60: refusal by refusal, then the warning, the opcodes written, and the two faults of a line. -/
theorem assemblerRefusesByName : Obligations.AssemblerRefusesByName := by
  intro n
  refine ⟨?bufwr, ?bright, ?number, ?bytes, ?frameLength, ?showLength, ?warning, ?quiet, ?opcode, ?mnemonic, ?count⟩
  case bufwr =>
    intro idx byte h
    exact assemble_of_refused (rangeError_of_exceeding (by simpa using h))
  case bright =>
    intro level h
    exact assemble_of_refused (rangeError_of_exceeding (by simpa using h))
  case number =>
    intro num h
    have herror : rangeError 65535 [num] = some .operandOutOfRange := rangeError_of_exceeding (by simpa using h)
    exact ⟨assemble_of_refused herror, assemble_of_refused herror⟩
  case bytes =>
    intro bytes hmin hmax h
    have herror : frameError bytes = some .operandOutOfRange :=
      (frameError_of_length hmin hmax).trans (rangeError_of_exceeding h)
    exact ⟨assemble_of_refused herror, fun hlength =>
      ⟨assemble_of_refused ((showraw_error_of_length hlength).trans herror),
        assemble_of_refused ((showstr_error_of_length hlength).trans herror)⟩⟩
  case frameLength =>
    intro bytes h
    exact assemble_of_refused (frameError_of_bad_length h)
  case showLength =>
    intro bytes h
    exact ⟨assemble_of_refused (showraw_error_of_bad_length h), assemble_of_refused (showstr_error_of_bad_length h)⟩
  case warning =>
    intro idx byte hnone hidx hbyte
    rw [assemble_of_accepted (bufwr_accepted n hidx hbyte), Except.map, asmWarnings, if_pos hnone]
  case quiet =>
    intro idx byte hentry hbyte
    rw [assemble_of_accepted (bufwr_accepted n (by omega) hbyte), Except.map, asmWarnings, if_neg (by omega)]
  case opcode =>
    intro a out ha h w hw
    rw [words_of_assembled h, List.mem_map] at hw
    obtain ⟨i, hi, rfl⟩ := hw
    rw [encode_opcode]
    exact opc_of_mem_asmInstrs ha hi
  case mnemonic =>
    intro line htext h
    exact assembleLine_of_refused (readLine_of_unknown htext (readMnemonic_of_unknown h)) n
  case count =>
    intro line m count hm hcount h
    refine assembleLine_of_refused ?_ n
    rw [readLine_of_mnemonic hm, buildStmt_of_wrong_count hcount h]
    rfl

end Sys2Proof.Proofs
end
